-- ==== Sys2Proof/Word.lean ====
section
/-! DEFINITION. The word types of the core (00_scope.md R6, R8; 30_encoding.md R101). -/

namespace Sys2Proof

/-- An 8-bit value: a general register, a timer, a byte of memory, the literal `kk`. -/
abbrev Byte := BitVec 8

/-- A 16-bit value: an instruction word, `I`, `pc`, a stack entry. -/
abbrev Word := BitVec 16

/-- A 4-bit field: the family `op`, the count or sub-opcode `n`, a logical key code. -/
abbrev Nibble := BitVec 4

/-- A 4-bit field `x` or `y` that names a general register (10_state.md R31, R34: always in 0..15). -/
abbrev RegId := BitVec 4

/-- A 12-bit address literal `nnn`. -/
abbrev Addr12 := BitVec 12

/-- One row of 64 one-bit pixels, bit `x` the pixel of column `x` (10_state.md R43). -/
abbrev PixelRow := BitVec 64

/-- The framebuffer's 32 rows of 64 pixels: the pixel at linear index `x + 64*y` is bit `x` of row `y` (10_state.md R43). -/
abbrev Pixels := Vector PixelRow 32

end Sys2Proof
end

