-- ==== Sys2Proof/Syntax.lean ====
section
/-! DEFINITION. The instructions: one constructor per row of spec/opcode_table.json (30_encoding.md R101, R104, R113).
A field the core decodes and ignores (the low nibble of `5xyN` and `9xyN`, R107; `y` of SHR and SHL, R159, R161; every
field of a no-op, R106, R108) is kept, so that no bit of a word is lost. -/

namespace Sys2Proof

/-- The 35 instructions in the order of the table, then the three family no-ops. -/
inductive Instr where
  /-- `00E0` CLS. -/
  | cls
  /-- `00EE` RET. -/
  | ret
  /-- `1nnn` JP addr. -/
  | jp (nnn : Addr12)
  /-- `2nnn` CALL addr. -/
  | call (nnn : Addr12)
  /-- `3xkk` SE Vx, byte. -/
  | seImm (x : RegId) (kk : Byte)
  /-- `4xkk` SNE Vx, byte. -/
  | sneImm (x : RegId) (kk : Byte)
  /-- `5xyN` SE Vx, Vy; N ignored. -/
  | seReg (x y : RegId) (n : Nibble)
  /-- `9xyN` SNE Vx, Vy; N ignored. -/
  | sneReg (x y : RegId) (n : Nibble)
  /-- `6xkk` LD Vx, byte. -/
  | ldImm (x : RegId) (kk : Byte)
  /-- `7xkk` ADD Vx, byte. -/
  | addImm (x : RegId) (kk : Byte)
  /-- `8xy0` LD Vx, Vy. -/
  | ldReg (x y : RegId)
  /-- `8xy1` OR Vx, Vy. -/
  | or (x y : RegId)
  /-- `8xy2` AND Vx, Vy. -/
  | and (x y : RegId)
  /-- `8xy3` XOR Vx, Vy. -/
  | xor (x y : RegId)
  /-- `8xy4` ADD Vx, Vy. -/
  | addReg (x y : RegId)
  /-- `8xy5` SUB Vx, Vy. -/
  | sub (x y : RegId)
  /-- `8xy6` SHR Vx; y ignored. -/
  | shr (x y : RegId)
  /-- `8xy7` SUBN Vx, Vy. -/
  | subn (x y : RegId)
  /-- `8xyE` SHL Vx; y ignored. -/
  | shl (x y : RegId)
  /-- `Annn` LD I, addr. -/
  | ldI (nnn : Addr12)
  /-- `Bnnn` JP V0, addr. -/
  | jpV0 (nnn : Addr12)
  /-- `Cxkk` RND Vx, byte. -/
  | rnd (x : RegId) (kk : Byte)
  /-- `Dxyn` DRW Vx, Vy, nibble. -/
  | drw (x y : RegId) (n : Nibble)
  /-- `Ex9E` SKP Vx. -/
  | skp (x : RegId)
  /-- `ExA1` SKNP Vx. -/
  | sknp (x : RegId)
  /-- `Fx07` LD Vx, DT. -/
  | ldVxDt (x : RegId)
  /-- `Fx15` LD DT, Vx. -/
  | ldDtVx (x : RegId)
  /-- `Fx0A` LD Vx, K. -/
  | ldVxK (x : RegId)
  /-- `Fx18` LD ST, Vx. -/
  | ldStVx (x : RegId)
  /-- `Fx1E` ADD I, Vx. -/
  | addI (x : RegId)
  /-- `Fx29` LD F, Vx. -/
  | ldF (x : RegId)
  /-- `Fx33` LD B, Vx. -/
  | ldB (x : RegId)
  /-- `Fx55` LD [I], Vx. -/
  | ldStore (x : RegId)
  /-- `Fx65` LD Vx, [I]. -/
  | ldLoad (x : RegId)
  /-- `0nnn` SYS addr, a no-op; not `00E0` or `00EE`. -/
  | sys (nnn : Addr12)
  /-- `8xyN` with N in 8..D or F, a no-op. -/
  | nop8 (x y : RegId) (n : Nibble)
  /-- `Exkk` with kk not 9E or A1, a no-op. -/
  | nopE (x : RegId) (kk : Byte)
  /-- `Fxkk` with kk not one of the nine F codes, a no-op. -/
  | nopF (x : RegId) (kk : Byte)
  deriving DecidableEq, Repr

/-- The name of an instruction's row in spec/opcode_table.json. -/
def Instr.mnemonic : Instr → String
  | .cls => "CLS"
  | .ret => "RET"
  | .jp _ => "JP"
  | .call _ => "CALL"
  | .seImm _ _ => "SE_imm"
  | .sneImm _ _ => "SNE_imm"
  | .seReg _ _ _ => "SE_reg"
  | .sneReg _ _ _ => "SNE_reg"
  | .ldImm _ _ => "LD_imm"
  | .addImm _ _ => "ADD_imm"
  | .ldReg _ _ => "LD_reg"
  | .or _ _ => "OR"
  | .and _ _ => "AND"
  | .xor _ _ => "XOR"
  | .addReg _ _ => "ADD_reg"
  | .sub _ _ => "SUB"
  | .shr _ _ => "SHR"
  | .subn _ _ => "SUBN"
  | .shl _ _ => "SHL"
  | .ldI _ => "LD_I"
  | .jpV0 _ => "JP_V0"
  | .rnd _ _ => "RND"
  | .drw _ _ _ => "DRW"
  | .skp _ => "SKP"
  | .sknp _ => "SKNP"
  | .ldVxDt _ => "LD_Vx_DT"
  | .ldDtVx _ => "LD_DT_Vx"
  | .ldVxK _ => "LD_Vx_K"
  | .ldStVx _ => "LD_ST_Vx"
  | .addI _ => "ADD_I"
  | .ldF _ => "LD_F"
  | .ldB _ => "LD_B"
  | .ldStore _ => "LD_store"
  | .ldLoad _ => "LD_load"
  | .sys _ => "SYS"
  | .nop8 _ _ _ => "NOP_8"
  | .nopE _ _ => "NOP_E"
  | .nopF _ _ => "NOP_F"

end Sys2Proof
end

