-- ==== Sys2Proof/WellFormed.lean ====
section
/-! DEFINITION. Which instruction terms are instructions of the core. A no-op row stands only for the words its family does
not recognise (30_encoding.md R105, R106, R108); every other field is in range by its type. -/

namespace Sys2Proof

/-- `0nnn` is SYS unless the word is CLS or RET (30_encoding.md R108). -/
def wfSys (nnn : Addr12) : Bool := nnn != 0x0E0#12 && nnn != 0x0EE#12

/-- The family-8 sub-opcodes that select no operation: 8, 9, A, B, C, D, F (30_encoding.md R105). -/
def wfNop8 (n : Nibble) : Bool :=
  [0x8#4, 0x9#4, 0xA#4, 0xB#4, 0xC#4, 0xD#4, 0xF#4].contains n

/-- The family-E codes that select no operation (30_encoding.md R113). -/
def wfNopE (kk : Byte) : Bool := !([0x9E#8, 0xA1#8].contains kk)

/-- The family-F codes that select no operation (30_encoding.md R113). -/
def wfNopF (kk : Byte) : Bool :=
  !([0x07#8, 0x0A#8, 0x15#8, 0x18#8, 0x1E#8, 0x29#8, 0x33#8, 0x55#8, 0x65#8].contains kk)

/-- The check on instruction terms. -/
def Instr.wf : Instr → Bool
  | .sys nnn => wfSys nnn
  | .nop8 _ _ n => wfNop8 n
  | .nopE _ kk => wfNopE kk
  | .nopF _ kk => wfNopF kk
  | .cls | .ret | .jp _ | .call _ | .seImm _ _ | .sneImm _ _ | .seReg _ _ _ | .sneReg _ _ _ | .ldImm _ _ | .addImm _ _
  | .ldReg _ _ | .or _ _ | .and _ _ | .xor _ _ | .addReg _ _ | .sub _ _ | .shr _ _ | .subn _ _ | .shl _ _ | .ldI _
  | .jpV0 _ | .rnd _ _ | .drw _ _ _ | .skp _ | .sknp _ | .ldVxDt _ | .ldDtVx _ | .ldVxK _ | .ldStVx _ | .addI _
  | .ldF _ | .ldB _ | .ldStore _ | .ldLoad _ => true

end Sys2Proof
end

