-- ==== Sys2Proof/Decode.lean ====
section
/-! DEFINITION. The decoder and the encoder (30_encoding.md R100 to R110), and the opcode map as data (R113). -/

namespace Sys2Proof

/-- `op`, bits 15:12 (30_encoding.md R101). -/
def fieldOp (w : Word) : Nibble := w.extractLsb' 12 4
/-- `x`, bits 11:8. -/
def fieldX (w : Word) : RegId := w.extractLsb' 8 4
/-- `y`, bits 7:4. -/
def fieldY (w : Word) : RegId := w.extractLsb' 4 4
/-- `n`, bits 3:0. -/
def fieldN (w : Word) : Nibble := w.extractLsb' 0 4
/-- `kk`, bits 7:0. -/
def fieldKK (w : Word) : Byte := w.extractLsb' 0 8
/-- `nnn`, bits 11:0. -/
def fieldNNN (w : Word) : Addr12 := w.extractLsb' 0 12

/-- Family 0: the whole word selects (30_encoding.md R104, R108). -/
def decodeFamily0 (w : Word) : Instr :=
  if w = 0x00E0#16 then .cls else if w = 0x00EE#16 then .ret else .sys (fieldNNN w)

/-- Family 8: the low nibble selects (30_encoding.md R104; the sub-opcodes are decision D21). -/
def decodeFamily8 (w : Word) : Instr :=
  match fieldN w with
  | 0x0#4 => .ldReg (fieldX w) (fieldY w)
  | 0x1#4 => .or (fieldX w) (fieldY w)
  | 0x2#4 => .and (fieldX w) (fieldY w)
  | 0x3#4 => .xor (fieldX w) (fieldY w)
  | 0x4#4 => .addReg (fieldX w) (fieldY w)
  | 0x5#4 => .sub (fieldX w) (fieldY w)
  | 0x6#4 => .shr (fieldX w) (fieldY w)
  | 0x7#4 => .subn (fieldX w) (fieldY w)
  | 0xE#4 => .shl (fieldX w) (fieldY w)
  | n => .nop8 (fieldX w) (fieldY w) n

/-- Family E: the low byte selects (30_encoding.md R104). -/
def decodeFamilyE (w : Word) : Instr :=
  match fieldKK w with
  | 0x9E#8 => .skp (fieldX w)
  | 0xA1#8 => .sknp (fieldX w)
  | kk => .nopE (fieldX w) kk

/-- Family F: the low byte selects (30_encoding.md R104). -/
def decodeFamilyF (w : Word) : Instr :=
  match fieldKK w with
  | 0x07#8 => .ldVxDt (fieldX w)
  | 0x0A#8 => .ldVxK (fieldX w)
  | 0x15#8 => .ldDtVx (fieldX w)
  | 0x18#8 => .ldStVx (fieldX w)
  | 0x1E#8 => .addI (fieldX w)
  | 0x29#8 => .ldF (fieldX w)
  | 0x33#8 => .ldB (fieldX w)
  | 0x55#8 => .ldStore (fieldX w)
  | 0x65#8 => .ldLoad (fieldX w)
  | kk => .nopF (fieldX w) kk

/-- The decoder: the family first, then the secondary value of families 0, 8, E and F (30_encoding.md R104). Total: every word
has exactly one meaning and none is illegal (R105, R109). -/
def decodeWord (w : Word) : Instr :=
  match fieldOp w with
  | 0x0#4 => decodeFamily0 w
  | 0x1#4 => .jp (fieldNNN w)
  | 0x2#4 => .call (fieldNNN w)
  | 0x3#4 => .seImm (fieldX w) (fieldKK w)
  | 0x4#4 => .sneImm (fieldX w) (fieldKK w)
  | 0x5#4 => .seReg (fieldX w) (fieldY w) (fieldN w)
  | 0x6#4 => .ldImm (fieldX w) (fieldKK w)
  | 0x7#4 => .addImm (fieldX w) (fieldKK w)
  | 0x8#4 => decodeFamily8 w
  | 0x9#4 => .sneReg (fieldX w) (fieldY w) (fieldN w)
  | 0xA#4 => .ldI (fieldNNN w)
  | 0xB#4 => .jpV0 (fieldNNN w)
  | 0xC#4 => .rnd (fieldX w) (fieldKK w)
  | 0xD#4 => .drw (fieldX w) (fieldY w) (fieldN w)
  | 0xE#4 => decodeFamilyE w
  | _ => decodeFamilyF w

/-- The one way bytes give no instruction: fewer than the 2 bytes every instruction has (30_encoding.md R100). -/
inductive DecodeError where
  | truncated
  deriving DecidableEq, Repr

/-- The instruction word of two bytes, the first the high one (20_memory.md R75). -/
def joinBytes (hi lo : Byte) : Word := hi ++ lo

/-- Decode a list of bytes: 2 are consumed, big-endian (30_encoding.md R100). -/
def decode : List Byte → Except DecodeError (Instr × List Byte)
  | hi :: lo :: rest => .ok (decodeWord (joinBytes hi lo), rest)
  | _ => .error .truncated

/-- The high byte of an instruction word, the one at the lower address (20_memory.md R75). -/
def highByte (w : Word) : Byte := w.extractLsb' 8 8

/-- The low byte of an instruction word. -/
def lowByte (w : Word) : Byte := w.extractLsb' 0 8

/-- Format ADDR: family and `nnn` (30_encoding.md R101). -/
def wordAddr (op : Nibble) (nnn : Addr12) : Word := op ++ nnn

/-- Formats XKK and XSUB: family, `x`, low byte. -/
def wordXKK (op : Nibble) (x : RegId) (kk : Byte) : Word := op ++ x ++ kk

/-- Formats XY and XYN: family, `x`, `y`, low nibble. -/
def wordXYN (op : Nibble) (x y : RegId) (n : Nibble) : Word := op ++ x ++ y ++ n

/-- The word of an instruction, from the encodings of 30_encoding.md R113. -/
def encode : Instr → Word
  | .cls => 0x00E0#16
  | .ret => 0x00EE#16
  | .jp nnn => wordAddr 0x1#4 nnn
  | .call nnn => wordAddr 0x2#4 nnn
  | .seImm x kk => wordXKK 0x3#4 x kk
  | .sneImm x kk => wordXKK 0x4#4 x kk
  | .seReg x y n => wordXYN 0x5#4 x y n
  | .sneReg x y n => wordXYN 0x9#4 x y n
  | .ldImm x kk => wordXKK 0x6#4 x kk
  | .addImm x kk => wordXKK 0x7#4 x kk
  | .ldReg x y => wordXYN 0x8#4 x y 0x0#4
  | .or x y => wordXYN 0x8#4 x y 0x1#4
  | .and x y => wordXYN 0x8#4 x y 0x2#4
  | .xor x y => wordXYN 0x8#4 x y 0x3#4
  | .addReg x y => wordXYN 0x8#4 x y 0x4#4
  | .sub x y => wordXYN 0x8#4 x y 0x5#4
  | .shr x y => wordXYN 0x8#4 x y 0x6#4
  | .subn x y => wordXYN 0x8#4 x y 0x7#4
  | .shl x y => wordXYN 0x8#4 x y 0xE#4
  | .ldI nnn => wordAddr 0xA#4 nnn
  | .jpV0 nnn => wordAddr 0xB#4 nnn
  | .rnd x kk => wordXKK 0xC#4 x kk
  | .drw x y n => wordXYN 0xD#4 x y n
  | .skp x => wordXKK 0xE#4 x 0x9E#8
  | .sknp x => wordXKK 0xE#4 x 0xA1#8
  | .ldVxDt x => wordXKK 0xF#4 x 0x07#8
  | .ldDtVx x => wordXKK 0xF#4 x 0x15#8
  | .ldVxK x => wordXKK 0xF#4 x 0x0A#8
  | .ldStVx x => wordXKK 0xF#4 x 0x18#8
  | .addI x => wordXKK 0xF#4 x 0x1E#8
  | .ldF x => wordXKK 0xF#4 x 0x29#8
  | .ldB x => wordXKK 0xF#4 x 0x33#8
  | .ldStore x => wordXKK 0xF#4 x 0x55#8
  | .ldLoad x => wordXKK 0xF#4 x 0x65#8
  | .sys nnn => wordAddr 0x0#4 nnn
  | .nop8 x y n => wordXYN 0x8#4 x y n
  | .nopE x kk => wordXKK 0xE#4 x kk
  | .nopF x kk => wordXKK 0xF#4 x kk

/-- The bytes of an instruction, the high one first (20_memory.md R75). -/
def encodeBytes (i : Instr) : List Byte := [highByte (encode i), lowByte (encode i)]

/-- One row of the opcode map: a word selects it when `word &&& mask = pattern` (30_encoding.md R113). -/
structure OpcodeRow where
  mnemonic : String
  pattern : Word
  mask : Word
  priority : Nat
  deriving DecidableEq, Repr

/-- The rows of families 0 to 7 and 9 with priority 0, in the map's order. -/
def opcodeRowsControl : List OpcodeRow :=
  [⟨"CLS", 0x00E0#16, 0xFFFF#16, 0⟩, ⟨"RET", 0x00EE#16, 0xFFFF#16, 0⟩, ⟨"JP", 0x1000#16, 0xF000#16, 0⟩,
   ⟨"CALL", 0x2000#16, 0xF000#16, 0⟩, ⟨"SE_imm", 0x3000#16, 0xF000#16, 0⟩, ⟨"SNE_imm", 0x4000#16, 0xF000#16, 0⟩,
   ⟨"SE_reg", 0x5000#16, 0xF000#16, 0⟩, ⟨"SNE_reg", 0x9000#16, 0xF000#16, 0⟩, ⟨"LD_imm", 0x6000#16, 0xF000#16, 0⟩,
   ⟨"ADD_imm", 0x7000#16, 0xF000#16, 0⟩]

/-- The nine family-8 operations. -/
def opcodeRowsAlu : List OpcodeRow :=
  [⟨"LD_reg", 0x8000#16, 0xF00F#16, 0⟩, ⟨"OR", 0x8001#16, 0xF00F#16, 0⟩, ⟨"AND", 0x8002#16, 0xF00F#16, 0⟩,
   ⟨"XOR", 0x8003#16, 0xF00F#16, 0⟩, ⟨"ADD_reg", 0x8004#16, 0xF00F#16, 0⟩, ⟨"SUB", 0x8005#16, 0xF00F#16, 0⟩,
   ⟨"SHR", 0x8006#16, 0xF00F#16, 0⟩, ⟨"SUBN", 0x8007#16, 0xF00F#16, 0⟩, ⟨"SHL", 0x800E#16, 0xF00F#16, 0⟩]

/-- The rows of families A to F with priority 0. -/
def opcodeRowsHigh : List OpcodeRow :=
  [⟨"LD_I", 0xA000#16, 0xF000#16, 0⟩, ⟨"JP_V0", 0xB000#16, 0xF000#16, 0⟩, ⟨"RND", 0xC000#16, 0xF000#16, 0⟩,
   ⟨"DRW", 0xD000#16, 0xF000#16, 0⟩, ⟨"SKP", 0xE09E#16, 0xF0FF#16, 0⟩, ⟨"SKNP", 0xE0A1#16, 0xF0FF#16, 0⟩,
   ⟨"LD_Vx_DT", 0xF007#16, 0xF0FF#16, 0⟩, ⟨"LD_DT_Vx", 0xF015#16, 0xF0FF#16, 0⟩, ⟨"LD_Vx_K", 0xF00A#16, 0xF0FF#16, 0⟩,
   ⟨"LD_ST_Vx", 0xF018#16, 0xF0FF#16, 0⟩, ⟨"ADD_I", 0xF01E#16, 0xF0FF#16, 0⟩, ⟨"LD_F", 0xF029#16, 0xF0FF#16, 0⟩,
   ⟨"LD_B", 0xF033#16, 0xF0FF#16, 0⟩, ⟨"LD_store", 0xF055#16, 0xF0FF#16, 0⟩, ⟨"LD_load", 0xF065#16, 0xF0FF#16, 0⟩]

/-- SYS and the family no-ops, priority 1. -/
def opcodeRowsNoOp : List OpcodeRow :=
  [⟨"SYS", 0x0000#16, 0xF000#16, 1⟩, ⟨"NOP_8", 0x8000#16, 0xF000#16, 1⟩, ⟨"NOP_E", 0xE000#16, 0xF000#16, 1⟩,
   ⟨"NOP_F", 0xF000#16, 0xF000#16, 1⟩]

/-- The opcode map (30_encoding.md R113). -/
def opcodeMap : List OpcodeRow := opcodeRowsControl ++ opcodeRowsAlu ++ opcodeRowsHigh ++ opcodeRowsNoOp

/-- Does the row match the word? -/
def OpcodeRow.matches (r : OpcodeRow) (w : Word) : Bool := w &&& r.mask == r.pattern

/-- The map read as a decoder: the first match of priority 0, else the first of priority 1 (30_encoding.md R113). -/
def selectedRow (w : Word) : Option OpcodeRow :=
  (opcodeMap.find? fun r => r.priority == 0 && r.matches w).or (opcodeMap.find? fun r => r.priority == 1 && r.matches w)

/-- The instruction read from a word numbered as the opcode table numbers it: one 16-bit word, stored high byte first
(20_memory.md R75). No instruction has more than 16 bits (30_encoding.md R100). -/
def decodeTableWord (nbits w : Nat) : Option Instr :=
  if nbits ≤ 16 then
    let word := BitVec.ofNat 16 (w % 2 ^ nbits)
    match decode [highByte word, lowByte word] with
    | .ok (i, _) => some i
    | .error _ => none
  else none

end Sys2Proof
end

