-- ==== Sys2Proof/Config.lean ====
section
/-! DEFINITION. What an implementation fixes (the parameters of 00_scope.md R6) and the free values of the outside world.
Opaque constants have no value any proof can see: a claim holds whatever they are. -/

namespace Sys2Proof

/-- `SHL_FLAG_MODE` (00_scope.md R6, 41_alu.md R161; 90_conflicts.md C2). -/
inductive ShlFlagMode where
  /-- VF is written 0 on every SHL; the default. -/
  | zero
  /-- VF is the old most significant bit. -/
  | msb
  deriving DecidableEq, Repr

/-- The named parameters of 00_scope.md R6. Constant along a run. -/
structure Params where
  shlFlagMode : ShlFlagMode
  /-- `FONT`: sixteen 5-byte glyphs (10_state.md R48). -/
  font : Vector Byte 80
  deriving DecidableEq, Repr

/-- The two transitions enabled while Running (60_exceptions.md R232). -/
inductive Activity where
  /-- The fast gate fires: one instruction step. -/
  | step
  /-- The slow gate fires: one timer tick. -/
  | tick
  deriving DecidableEq, Repr, Inhabited

/-- FREE VALUE (log 1). Which gate fires, once the schedule in the state has run out (60_exceptions.md R232, decision D15). -/
opaque Config.freeActivity : Nat → Activity

/-- FREE VALUE (log 2). A random byte, once the draws in the state have run out (41_alu.md R162, decision D17). -/
opaque Config.freeRandom : Nat → Byte

/-- FREE VALUE (log 3). A key poll's answer, once the answers in the state have run out (44_timers_input.md R200, decision D18). -/
opaque Config.freePoll : Nat → Bool

/-- FREE VALUE (log 4). What the key wait answers, `none` for not yet, once the answers in the state have run out
(44_timers_input.md R200, R204, decision D19). -/
opaque Config.freeKey : Nat → Option Nibble

end Sys2Proof
end

