-- ==== Sys2Proof/Machine/Font.lean ====
section
/-! DEFINITION. The default parameters (00_scope.md R6; the FONT table of 10_state.md R48). -/

namespace Sys2Proof.Machine

/-- Glyphs 0 to 7 of the default `FONT`, five bytes each. -/
def fontGlyphsLow : Vector Byte 40 :=
  #v[0xF0, 0x90, 0x90, 0x90, 0xF0,  0x20, 0x60, 0x20, 0x20, 0x70,  0xF0, 0x10, 0xF0, 0x80, 0xF0,  0xF0, 0x10, 0xF0, 0x10, 0xF0,
     0x90, 0x90, 0xF0, 0x10, 0x10,  0xF0, 0x80, 0xF0, 0x10, 0xF0,  0xF0, 0x80, 0xF0, 0x90, 0xF0,  0xF0, 0x10, 0x20, 0x40, 0x40]

/-- Glyphs 8 to F of the default `FONT`. -/
def fontGlyphsHigh : Vector Byte 40 :=
  #v[0xF0, 0x90, 0xF0, 0x90, 0xF0,  0xF0, 0x90, 0xF0, 0x10, 0xF0,  0xF0, 0x90, 0xF0, 0x90, 0x90,  0xE0, 0x90, 0xE0, 0x90, 0xE0,
     0xF0, 0x80, 0x80, 0x80, 0xF0,  0xE0, 0x90, 0x90, 0x90, 0xE0,  0xF0, 0x80, 0xF0, 0x80, 0xF0,  0xF0, 0x80, 0xF0, 0x80, 0x80]

/-- The default `FONT` table (10_state.md R48, decision D13): glyph g at 5*g. -/
def defaultFont : Vector Byte 80 := fontGlyphsLow ++ fontGlyphsHigh

/-- The parameters at their defaults (00_scope.md R6). -/
def defaultParams : Params := { shlFlagMode := .zero, font := defaultFont }

end Sys2Proof.Machine
end

