-- ==== Sys2Proof/Machine/Memory.lean ====
section
/-! DEFINITION. Memory as data: 4096 bytes held as the cells that differ from the reset contents (20_memory.md R70, R79). -/

namespace Sys2Proof.Machine

/-- The cells that differ from the reset contents, addresses strictly rising. -/
abbrev Memory := List Host.Cell

/-- What an unlisted address reads as: the contents after `Init`, `FONT` at 0..79 and zero above (10_state.md R48). -/
def Memory.unlisted (font : Vector Byte 80) (a : Nat) : Byte :=
  if h : a < 80 then font[a] else 0

/-- The byte at an address. -/
def Memory.get (font : Vector Byte 80) : Memory → Nat → Byte
  | [], a => Memory.unlisted font a
  | (b, v) :: rest, a => if a = b then v else Memory.get font rest a

/-- Put a cell in its place by address. -/
def Memory.insertCell (a : Nat) (v : Byte) : Memory → Memory
  | [] => [(a, v)]
  | (b, w) :: rest => if a < b then (a, v) :: (b, w) :: rest else (b, w) :: Memory.insertCell a v rest

/-- Write one byte, keeping the canonical form: a cell with the unlisted value is not kept. -/
def Memory.put (font : Vector Byte 80) (a : Nat) (v : Byte) (m : Memory) : Memory :=
  let others := m.filter fun c => c.1 != a
  if v = Memory.unlisted font a then others else Memory.insertCell a v others

/-- Write consecutive bytes from an address on (20_memory.md R87). -/
def Memory.putList (font : Vector Byte 80) : Nat → List Byte → Memory → Memory
  | _, [], m => m
  | a, v :: vs, m => Memory.putList font (a + 1) vs (Memory.put font a v m)

/-- The canonical form: addresses strictly rising and inside the 4096 bytes, no cell that reads as unlisted. -/
abbrev Memory.wf (font : Vector Byte 80) (m : Memory) : Prop :=
  m.Pairwise (fun c d => c.1 < d.1) ∧ ∀ c ∈ m, c.1 < 4096 ∧ c.2 ≠ Memory.unlisted font c.1

end Sys2Proof.Machine
end

