-- ==== Sys2Proof/Machine/State.lean ====
section
/-! DEFINITION. The state of the core (10_state.md R30), with the outside world's answers and the core's outputs as plain data,
and the state after `Init` (70_reset_and_hazards.md R260). -/

namespace Sys2Proof.Machine

/-- The causes of a fatal invariant violation (60_exceptions.md R220). -/
inductive Cause where
  /-- `2nnn` with 16 entries on the stack. -/
  | stackOverflow
  /-- `00EE` with an empty stack. -/
  | stackUnderflow
  /-- A fetch with `pc + 1 >= 4096`. -/
  | fetchRange
  /-- `Dxyn` or `Fx65` reads an address of 4096 or more. -/
  | readRange
  /-- `Fx33` or `Fx55` writes an address of 4096 or more. -/
  | writeRange
  /-- `Ex9E` or `ExA1` with a key value above 15. -/
  | keyRange
  /-- A register index outside 0..15: reserved, no instruction raises it (10_state.md R34). -/
  | regRange
  deriving DecidableEq, Repr

/-- The cause's code (60_exceptions.md R220). -/
def Cause.code : Cause → Nat
  | .stackOverflow => 1
  | .stackUnderflow => 2
  | .fetchRange => 3
  | .readRange => 4
  | .writeRange => 5
  | .keyRange => 6
  | .regRange => 7

/-- What a fault records beside the pc (60_exceptions.md R220, last column). -/
inductive FaultInfo where
  /-- The pc alone. -/
  | pcOnly
  /-- The address that was out of range. -/
  | addr (a : Nat)
  /-- The key value that was out of range. -/
  | key (k : Byte)
  /-- The register index that was out of range (reserved with `regRange`). -/
  | index (n : Nat)
  deriving DecidableEq, Repr

/-- Why the program image was not loaded (20_memory.md R87). -/
inductive LoadFailure where
  /-- There was no image. -/
  | missing
  /-- The image is longer than 3584 bytes. -/
  | tooLarge
  deriving DecidableEq, Repr

/-- Where the engine stands (10_state.md R45). -/
inductive Status where
  /-- Made by `Init`, no image loaded yet. -/
  | reset
  /-- Steps and ticks may fire. -/
  | running
  /-- `Fx0A` at `pc` waits for a key for register x; nothing else moves. -/
  | waitKey (x : RegId)
  /-- A fatal invariant violation; terminal. -/
  | faulted (cause : Cause) (pc : Word) (info : FaultInfo)
  /-- The image was absent or did not fit; terminal. -/
  | loadFailed (reason : LoadFailure)
  deriving DecidableEq, Repr

/-- What the core emits (60_exceptions.md R221, R231). -/
inductive Output where
  /-- One tone pulse. -/
  | tone
  /-- The diagnostic of a fault. -/
  | diagnostic (cause : Cause) (pc : Word) (info : FaultInfo)
  deriving DecidableEq, Repr

/-- The outside world's answers, as the core will meet them (60_exceptions.md R235). The MODEL's own fields (log 1 to 4, 10): when
a list has run out, the answer is a free value of Config taken at the counter `drawn`. -/
structure Inputs where
  /-- Which gate fires next, while Running (60_exceptions.md R232). -/
  schedule : List Activity
  /-- The random bytes to come (41_alu.md R162). -/
  rng : List Byte
  /-- The answers of the key polls to come (44_timers_input.md R200). -/
  polls : List Bool
  /-- What the key wait answers at each step of a wait; `none`: no key yet (44_timers_input.md R200). -/
  keys : List (Option Nibble)
  /-- The program image, or its absence (20_memory.md R87). -/
  image : Option (List Byte)
  /-- How many free values were taken. -/
  drawn : Nat
  deriving DecidableEq, Repr

/-- The state of the machine: the nine rows of 10_state.md R30, the parameters of 00_scope.md R6, and the outside world. -/
structure State where
  /-- `V[0..15]` (10_state.md R31). -/
  v : Vector Byte 16
  /-- The address register `I` (10_state.md R35). -/
  i : Word
  /-- The program counter (10_state.md R36). -/
  pc : Word
  /-- The call stack, oldest entry first (10_state.md R38). -/
  stack : List Word
  /-- The delay timer (10_state.md R40). -/
  dt : Byte
  /-- The sound timer (10_state.md R41). -/
  st : Byte
  /-- `M[0..4095]` (10_state.md R42). -/
  mem : Memory
  /-- `FB[0..2047]` (10_state.md R43). -/
  fb : Pixels
  /-- Where the engine stands (10_state.md R45). -/
  status : Status
  /-- The parameters, constant along a run (00_scope.md R6). -/
  params : Params
  /-- The outside world's answers (the model's own). -/
  inputs : Inputs
  /-- What the core has emitted, oldest first (the model's own; 60_exceptions.md R221, R231). -/
  outputs : List Output
  deriving DecidableEq, Repr

/-- Why a step ends the machine. -/
inductive Fault where
  /-- Raised by `step` in the terminal status `Faulted`: no transition is enabled there (60_exceptions.md R221, R223). Safe: the
  hardware does nothing more either. The step that met the violation itself answered a next state with that status. -/
  | fatal (cause : Cause) (pc : Word) (info : FaultInfo)
  /-- Raised by `step` in the terminal status `LoadFailed`: the machine never starts (10_state.md R45). Safe. -/
  | neverStarted (reason : LoadFailure)
  deriving DecidableEq, Repr

/-- Why an instruction is refused. -/
inductive Refusal where
  /-- Raised only by an arm of `exec` whose instruction has no meaning yet; no arm is such. Safe. -/
  | notModelled (mnemonic : String)
  deriving DecidableEq, Repr

/-- `Init` (70_reset_and_hazards.md R260), for given parameters and a given outside world. -/
def State.init (params : Params) (inputs : Inputs) : State where
  v := Vector.replicate 16 0
  i := 0
  pc := 512
  stack := []
  dt := 0
  st := 0
  mem := []
  fb := Vector.replicate 32 0
  status := .reset
  params := params
  inputs := inputs
  outputs := []

/-- An outside world that has supplied nothing. -/
def Inputs.nothing : Inputs where
  schedule := []
  rng := []
  polls := []
  keys := []
  image := none
  drawn := 0

/-- The machine right after `Init`, with the default parameters (10_state.md R48, 00_scope.md R6) and nothing supplied from
outside. -/
def State.reset : State := State.init defaultParams Inputs.nothing

end Sys2Proof.Machine
end

