-- ==== Sys2Proof/Machine/Inputs.lean ====
section
/-! DEFINITION. Taking the outside world's next answer: the head of its list, or a free value once the list has run out. -/

namespace Sys2Proof.Machine

/-- One more free value was taken. -/
def Inputs.countDraw (n : Inputs) : Inputs := { n with drawn := n.drawn + 1 }

/-- Which gate fires next (60_exceptions.md R232). -/
def Inputs.nextActivity (n : Inputs) : Activity := n.schedule.headD (Config.freeActivity n.drawn)

/-- After a gate has fired. -/
def Inputs.dropActivity (n : Inputs) : Inputs :=
  match n.schedule with
  | _ :: rest => { n with schedule := rest }
  | [] => n.countDraw

/-- The byte `rng()` returns (41_alu.md R162). -/
def Inputs.nextRandom (n : Inputs) : Byte := n.rng.headD (Config.freeRandom n.drawn)

/-- After a random draw. -/
def Inputs.dropRandom (n : Inputs) : Inputs :=
  match n.rng with
  | _ :: rest => { n with rng := rest }
  | [] => n.countDraw

/-- What `key.poll` answers (44_timers_input.md R200). -/
def Inputs.nextPoll (n : Inputs) : Bool := n.polls.headD (Config.freePoll n.drawn)

/-- After a key poll. -/
def Inputs.dropPoll (n : Inputs) : Inputs :=
  match n.polls with
  | _ :: rest => { n with polls := rest }
  | [] => n.countDraw

/-- What `key.wait` answers at this step of the wait: a code, or not yet (44_timers_input.md R200, R204). -/
def Inputs.nextKey (n : Inputs) : Option Nibble := n.keys.headD (Config.freeKey n.drawn)

/-- After a step of a key wait. -/
def Inputs.dropKey (n : Inputs) : Inputs :=
  match n.keys with
  | _ :: rest => { n with keys := rest }
  | [] => n.countDraw

end Sys2Proof.Machine
end

