-- ==== Sys2Proof/Machine/Ops.lean ====
section
/-! DEFINITION. The named operations over registers, memory, stack, framebuffer and status. An operation that can end the
instruction answers `Except State`: `.error s` is the state in which the instruction has ended (00_scope.md R11). -/

namespace Sys2Proof.Machine

/-- One step's answer. -/
abbrev Result := Host.Outcome State Fault Refusal

/-! ## Registers -/

/-- `V[x]` (10_state.md R31). -/
def State.getV (s : State) (x : RegId) : Byte := s.v[x.toNat]'x.isLt

/-- `V[x] <- b` (10_state.md R31). -/
def State.setV (s : State) (x : RegId) (b : Byte) : State := { s with v := s.v.set x.toNat b x.isLt }

/-- VF, the flag register (10_state.md R32). -/
def vf : RegId := 15#4

/-! ## Fault entry and the sequencer's advance -/

/-- `raise Fatal(cause, info)`: the one fault entry (60_exceptions.md R221, 00_scope.md R11). The status records the cause, the pc and
the info, the diagnostic is emitted, nothing else changes; the pc is not advanced (R222). There is no return from it (R223). -/
def raiseFatal (cause : Cause) (info : FaultInfo) (s : State) : State :=
  { s with status := .faulted cause s.pc info, outputs := s.outputs ++ [.diagnostic cause s.pc info] }

/-- The unconditional advance (10_state.md R37). -/
def advance (s : State) : State := { s with pc := s.pc + 2#16 }

/-- An instruction that completes: the sequencer advances (10_state.md R37, 30_encoding.md R103). -/
def completed (s : State) : Result := .next (advance s)

/-- Go on from an operation that may have ended the instruction. -/
def andThen {α : Type} (m : Except State α) (k : α → Result) : Result :=
  match m with
  | .ok a => k a
  | .error s => .next s

/-! ## Control transfer (40_control_flow.md R130) -/

/-- `Jump(target)`: `pc <- (target - 2) mod 2^16`, so that the advance lands on the target. -/
def jump (target : Nat) (s : State) : State := { s with pc := BitVec.ofNat 16 target - 2#16 }

/-- `Skip()`: `pc <- (pc + 2) mod 2^16`, so that the advance lands 4 bytes on. -/
def skip (s : State) : State := { s with pc := s.pc + 2#16 }

/-- Skip on a condition. -/
def skipIf (c : Bool) (s : State) : State := if c then skip s else s

/-! ## The call stack (10_state.md R38) -/

/-- `Push(v)`: overflow with 16 entries. -/
def push (w : Word) (s : State) : Except State State :=
  if 16 ≤ s.stack.length then .error (raiseFatal .stackOverflow .pcOnly s) else .ok { s with stack := s.stack ++ [w] }

/-- `Pop()`: the last entry and the state without it; underflow when empty. -/
def pop (s : State) : Except State (Word × State) :=
  match s.stack.getLast? with
  | none => .error (raiseFatal .stackUnderflow .pcOnly s)
  | some w => .ok (w, { s with stack := s.stack.dropLast })

/-! ## Memory (20_memory.md R71, R72, R77) -/

/-- `M[a]`, with no range check. -/
def State.byteAt (s : State) (a : Nat) : Byte := Memory.get s.params.font s.mem a

/-- `M[a] <- v`, with no range check. -/
def State.setByte (s : State) (a : Nat) (v : Byte) : State := { s with mem := Memory.put s.params.font a v s.mem }

/-- `MemRead(a, 1)`: fault from 4096 on. -/
def memRead (a : Nat) (s : State) : Except State Byte :=
  if 4096 ≤ a then .error (raiseFatal .readRange (.addr a) s) else .ok (s.byteAt a)

/-- `MemWrite(a, 1, v)`: fault from 4096 on. -/
def memWrite (a : Nat) (v : Byte) (s : State) : Except State State :=
  if 4096 ≤ a then .error (raiseFatal .writeRange (.addr a) s) else .ok (s.setByte a v)

/-- Consecutive byte writes in ascending order, each checked when its turn comes (42_index_memory.md R173, R174). -/
def storeBytes : Nat → List Byte → State → Except State State
  | _, [], s => .ok s
  | a, v :: vs, s =>
    match memWrite a v s with
    | .ok s' => storeBytes (a + 1) vs s'
    | .error e => .error e

/-- `V[r] <- MemRead(base + r, 1)` for `count` registers from `r` up, ascending (42_index_memory.md R175). -/
def loadRegs (base : Nat) : (count r : Nat) → State → Except State State
  | 0, _, s => .ok s
  | count + 1, r, s =>
    match memRead (base + r) s with
    | .ok b => loadRegs base count (r + 1) (s.setV (BitVec.ofNat 4 r) b)
    | .error e => .error e

/-- `Fetch(pc)`: two bytes, the first the high one; fault if `pc + 1 >= 4096`, with no wrap (20_memory.md R77). -/
def fetch (s : State) : Except State Word :=
  if 4096 ≤ s.pc.toNat + 1 then .error (raiseFatal .fetchRange .pcOnly s)
  else .ok (s.byteAt s.pc.toNat ++ s.byteAt (s.pc.toNat + 1))

/-! ## Framebuffer (43_display.md R190) -/

/-- `fb.clear()`. -/
def fbClear (s : State) : State := { s with fb := Vector.replicate 32 0 }

/-- `fb.get(pos)`; the core only issues positions 0..2047. -/
def State.pixel (s : State) (pos : Nat) : Bool :=
  if h : pos / 64 < 32 then s.fb[pos / 64].getLsbD (pos % 64) else false

/-- `fb.toggle(pos)`, the source's `setPixel`; the core only issues positions 0..2047. -/
def fbToggle (pos : Nat) (s : State) : State :=
  if h : pos / 64 < 32 then { s with fb := s.fb.set (pos / 64) (s.fb[pos / 64] ^^^ BitVec.twoPow 64 (pos % 64)) } else s

/-! ## The outside world -/

/-- A poll of the key device: the answer, and the state after the poll (44_timers_input.md R200). -/
def keyPoll (s : State) : Bool × State := (s.inputs.nextPoll, { s with inputs := s.inputs.dropPoll })

/-- A random draw: the byte, and the state after the draw (41_alu.md R162). -/
def randomDraw (s : State) : Byte × State := (s.inputs.nextRandom, { s with inputs := s.inputs.dropRandom })

/-- The key check of `Ex9E` and `ExA1`, before any poll (44_timers_input.md R201, R202; decision D6). -/
def keyCheck (k : Byte) (s : State) : Except State State :=
  if 15 < k.toNat then .error (raiseFatal .keyRange (.key k) s) else .ok s

end Sys2Proof.Machine
end

