-- ==== Sys2Proof/Machine/Flags.lean ====
section
/-! DEFINITION. The values written to VF as a flag, and the one order in which a result and its flag are written
(41_alu.md R152 to R161). -/

namespace Sys2Proof.Machine

/-- A condition as a flag value. -/
def flagOf (c : Bool) : Byte := if c then 1#8 else 0#8

/-- ADD: 1 iff the sum exceeds 255 (41_alu.md R157). -/
def carryFlag (a b : Byte) : Byte := flagOf (255 < a.toNat + b.toNat)

/-- SUB and SUBN: 1 iff the minuend is not below the subtrahend (41_alu.md R158, R160). -/
def noBorrowFlag (minuend subtrahend : Byte) : Byte := flagOf (subtrahend.toNat ≤ minuend.toNat)

/-- SHR: the old bit 0 (41_alu.md R159). -/
def shiftRightFlag (a : Byte) : Byte := flagOf (a.getLsbD 0)

/-- SHL: 0 in mode ZERO, the old bit 7 in mode MSB (41_alu.md R161; 90_conflicts.md C2). -/
def shiftLeftFlag (mode : ShlFlagMode) (a : Byte) : Byte :=
  match mode with
  | .zero => 0#8
  | .msb => flagOf (a.getLsbD 7)

/-- The result first, the flag last, so that VF holds the flag also when x is F (41_alu.md R152; decision D7). -/
def setResultFlag (x : RegId) (result flag : Byte) (s : State) : State := (s.setV x result).setV vf flag

end Sys2Proof.Machine
end

