-- ==== Sys2Proof/Machine/Alu.lean ====
section
/-! DEFINITION. Register loads, arithmetic and logic (41_alu.md). Operands are read before any write (R152, 00_scope.md R12). -/

namespace Sys2Proof.Machine

/-- `6xkk` LD Vx, byte (41_alu.md R150). -/
def execLdImm (x : RegId) (kk : Byte) (s : State) : Result := completed (s.setV x kk)

/-- `7xkk` ADD Vx, byte: no flag (41_alu.md R151). -/
def execAddImm (x : RegId) (kk : Byte) (s : State) : Result := completed (s.setV x (s.getV x + kk))

/-- `8xy0` LD Vx, Vy (41_alu.md R153). -/
def execLdReg (x y : RegId) (s : State) : Result := completed (s.setV x (s.getV y))

/-- `8xy1` OR (41_alu.md R154). -/
def execOr (x y : RegId) (s : State) : Result := completed (s.setV x (s.getV x ||| s.getV y))

/-- `8xy2` AND (41_alu.md R155). -/
def execAnd (x y : RegId) (s : State) : Result := completed (s.setV x (s.getV x &&& s.getV y))

/-- `8xy3` XOR (41_alu.md R156). -/
def execXor (x y : RegId) (s : State) : Result := completed (s.setV x (s.getV x ^^^ s.getV y))

/-- `8xy4` ADD Vx, Vy (41_alu.md R157). -/
def execAddReg (x y : RegId) (s : State) : Result :=
  let a := s.getV x
  let b := s.getV y
  completed (setResultFlag x (a + b) (carryFlag a b) s)

/-- `8xy5` SUB: x − y (41_alu.md R158). -/
def execSub (x y : RegId) (s : State) : Result :=
  let a := s.getV x
  let b := s.getV y
  completed (setResultFlag x (a - b) (noBorrowFlag a b) s)

/-- `8xy6` SHR: in place, y ignored (41_alu.md R159). -/
def execShr (x _y : RegId) (s : State) : Result :=
  let a := s.getV x
  completed (setResultFlag x (a >>> 1) (shiftRightFlag a) s)

/-- `8xy7` SUBN: y − x (41_alu.md R160). -/
def execSubn (x y : RegId) (s : State) : Result :=
  let a := s.getV x
  let b := s.getV y
  completed (setResultFlag x (b - a) (noBorrowFlag b a) s)

/-- `8xyE` SHL: in place, y ignored; the flag follows `SHL_FLAG_MODE` (41_alu.md R161). -/
def execShl (x _y : RegId) (s : State) : Result :=
  let a := s.getV x
  completed (setResultFlag x (a <<< 1) (shiftLeftFlag s.params.shlFlagMode a) s)

/-- `Cxkk` RND: a random byte AND the literal (41_alu.md R162). -/
def execRnd (x : RegId) (kk : Byte) (s : State) : Result :=
  let d := randomDraw s
  completed (d.2.setV x (d.1 &&& kk))

end Sys2Proof.Machine
end

