-- ==== Sys2Proof/Machine/Operands.lean ====
section
/-! DEFINITION. Every derived operand (30_encoding.md R102, 20_memory.md R73, 43_display.md R192). -/

namespace Sys2Proof.Machine

/-- The target of `Bnnn`: `nnn + V[0]`, not wrapped (40_control_flow.md R138). -/
def jumpV0Target (nnn : Addr12) (s : State) : Nat := nnn.toNat + (s.getV 0#4).toNat

/-- The glyph address of `Fx29`: `(V[x] & 0xF) * 5` (42_index_memory.md R172). -/
def glyphAddress (b : Byte) : Word := BitVec.ofNat 16 ((b &&& 0x0F#8).toNat * 5)

/-- The effective address `I + k`, an unbounded integer (20_memory.md R73). -/
def effectiveAddress (s : State) (k : Nat) : Nat := s.i.toNat + k

/-- The decimal digits of a byte: hundreds, tens, ones (42_index_memory.md R173). -/
def decimalDigits (b : Byte) : List Byte :=
  [BitVec.ofNat 8 (b.toNat / 100), BitVec.ofNat 8 (b.toNat / 10 % 10), BitVec.ofNat 8 (b.toNat % 10)]

/-- The contents of V0 to Vx in order (42_index_memory.md R174). -/
def registersUpTo (x : RegId) (s : State) : List Byte :=
  (List.range (x.toNat + 1)).map fun r => s.getV (BitVec.ofNat 4 r)

/-- The linear index of a sprite's pixel, each coordinate wrapped (43_display.md R192). -/
def pixelPosition (cx cy : Byte) (row col : Nat) : Nat := (cx.toNat + col) % 64 + 64 * ((cy.toNat + row) % 32)

/-- The bit of a sprite byte for a column, bit 7 leftmost (43_display.md R192; decision D23). -/
def spriteBit (b : Byte) (col : Nat) : Bool := b.getLsbD (7 - col)

end Sys2Proof.Machine
end

