-- ==== Sys2Proof/Machine/Control.lean ====
section
/-! DEFINITION. Control transfer and skips (40_control_flow.md), SYS and the family no-ops (30_encoding.md R106). -/

namespace Sys2Proof.Machine

/-- `00EE` RET (40_control_flow.md R131). -/
def execRet (s : State) : Result :=
  andThen (pop s) fun p => completed { p.2 with pc := p.1 }

/-- `1nnn` JP (40_control_flow.md R132). -/
def execJp (nnn : Addr12) (s : State) : Result := completed (jump nnn.toNat s)

/-- `2nnn` CALL: pushes its own address (40_control_flow.md R133). -/
def execCall (nnn : Addr12) (s : State) : Result :=
  andThen (push s.pc s) fun s' => completed (jump nnn.toNat s')

/-- `3xkk` SE Vx, byte (40_control_flow.md R134). -/
def execSeImm (x : RegId) (kk : Byte) (s : State) : Result := completed (skipIf (s.getV x == kk) s)

/-- `4xkk` SNE Vx, byte (40_control_flow.md R135). -/
def execSneImm (x : RegId) (kk : Byte) (s : State) : Result := completed (skipIf (s.getV x != kk) s)

/-- `5xyN` SE Vx, Vy; the low nibble is ignored (40_control_flow.md R136, 30_encoding.md R107). -/
def execSeReg (x y : RegId) (_n : Nibble) (s : State) : Result := completed (skipIf (s.getV x == s.getV y) s)

/-- `9xyN` SNE Vx, Vy; the low nibble is ignored (40_control_flow.md R137, 30_encoding.md R107). -/
def execSneReg (x y : RegId) (_n : Nibble) (s : State) : Result := completed (skipIf (s.getV x != s.getV y) s)

/-- `Bnnn` JP V0, addr (40_control_flow.md R138). -/
def execJpV0 (nnn : Addr12) (s : State) : Result := completed (jump (jumpV0Target nnn s) s)

/-- `0nnn` SYS: nothing but the advance (40_control_flow.md R139). -/
def execSys (_nnn : Addr12) (s : State) : Result := completed s

/-- An unrecognised family-8 word: nothing but the advance (30_encoding.md R106). -/
def execNop8 (_x _y : RegId) (_n : Nibble) (s : State) : Result := completed s

/-- An unrecognised family-E word: nothing but the advance (30_encoding.md R106). -/
def execNopE (_x : RegId) (_kk : Byte) (s : State) : Result := completed s

/-- An unrecognised family-F word: nothing but the advance (30_encoding.md R106). -/
def execNopF (_x : RegId) (_kk : Byte) (s : State) : Result := completed s

end Sys2Proof.Machine
end

