-- ==== Sys2Proof/Machine/Display.lean ====
section
/-! DEFINITION. The display instructions (43_display.md). -/

namespace Sys2Proof.Machine

/-- `00E0` CLS: VF is not written (43_display.md R191). -/
def execCls (s : State) : Result := completed (fbClear s)

/-- One column of one sprite row: a set bit toggles its pixel, and VF is raised if the pixel was set (43_display.md R192). -/
def drawColumn (cx cy : Byte) (row : Nat) (b : Byte) (s : State) (col : Nat) : State :=
  if spriteBit b col then
    let pos := pixelPosition cx cy row col
    let toggled := fbToggle pos s
    if s.pixel pos then toggled.setV vf 1#8 else toggled
  else s

/-- One sprite row, columns left to right. -/
def drawRow (cx cy : Byte) (row : Nat) (b : Byte) (s : State) : State :=
  (List.range 8).foldl (drawColumn cx cy row b) s

/-- `count` sprite rows from `row` down, each byte read when its row comes (43_display.md R192, decision D29). -/
def drawRows (cx cy : Byte) (base : Nat) : (count row : Nat) → State → Except State State
  | 0, _, s => .ok s
  | count + 1, row, s =>
    match memRead (base + row) s with
    | .ok b => drawRows cx cy base count (row + 1) (drawRow cx cy row b s)
    | .error e => .error e

/-- `Dxyn` DRW: the coordinates are latched before VF is reset (43_display.md R192, decision D9). -/
def execDrw (x y : RegId) (n : Nibble) (s : State) : Result :=
  andThen (drawRows (s.getV x) (s.getV y) (effectiveAddress s 0) n.toNat 0 (s.setV vf 0#8)) completed

end Sys2Proof.Machine
end

