-- ==== Sys2Proof/Machine/Index.lean ====
section
/-! DEFINITION. The address register and transfers between registers and memory (42_index_memory.md). No memory access changes I. -/

namespace Sys2Proof.Machine

/-- `Annn` LD I, addr (42_index_memory.md R170). -/
def execLdI (nnn : Addr12) (s : State) : Result := completed { s with i := nnn.setWidth 16 }

/-- `Fx1E` ADD I, Vx: modulo 2^16, no flag (42_index_memory.md R171; decision D11). -/
def execAddI (x : RegId) (s : State) : Result := completed { s with i := s.i + (s.getV x).setWidth 16 }

/-- `Fx29` LD F, Vx (42_index_memory.md R172). -/
def execLdF (x : RegId) (s : State) : Result := completed { s with i := glyphAddress (s.getV x) }

/-- `Fx33` LD B, Vx: hundreds, tens, ones at I, I+1, I+2 (42_index_memory.md R173). -/
def execLdB (x : RegId) (s : State) : Result :=
  andThen (storeBytes (effectiveAddress s 0) (decimalDigits (s.getV x)) s) completed

/-- `Fx55` LD [I], Vx: V0 to Vx at I and up (42_index_memory.md R174). -/
def execLdStore (x : RegId) (s : State) : Result :=
  andThen (storeBytes (effectiveAddress s 0) (registersUpTo x s) s) completed

/-- `Fx65` LD Vx, [I]: V0 to Vx from I and up (42_index_memory.md R175). -/
def execLdLoad (x : RegId) (s : State) : Result :=
  andThen (loadRegs (effectiveAddress s 0) (x.toNat + 1) 0 s) completed

end Sys2Proof.Machine
end

