-- ==== Sys2Proof/Machine/KeysTimers.lean ====
section
/-! DEFINITION. Key and timer instructions (44_timers_input.md). -/

namespace Sys2Proof.Machine

/-- `Ex9E` SKP (44_timers_input.md R201). -/
def execSkp (x : RegId) (s : State) : Result :=
  andThen (keyCheck (s.getV x) s) fun s' => completed (skipIf (keyPoll s').1 (keyPoll s').2)

/-- `ExA1` SKNP (44_timers_input.md R202). -/
def execSknp (x : RegId) (s : State) : Result :=
  andThen (keyCheck (s.getV x) s) fun s' => completed (skipIf (!(keyPoll s').1) (keyPoll s').2)

/-- `Fx07` LD Vx, DT (44_timers_input.md R203). -/
def execLdVxDt (x : RegId) (s : State) : Result := completed (s.setV x s.dt)

/-- `Fx15` LD DT, Vx (44_timers_input.md R205). -/
def execLdDtVx (x : RegId) (s : State) : Result := completed { s with dt := s.getV x }

/-- `Fx0A` LD Vx, K: the wait begins, with no advance (44_timers_input.md R204). -/
def execLdVxK (x : RegId) (s : State) : Result := .next { s with status := .waitKey x }

/-- `Fx18` LD ST, Vx (44_timers_input.md R206). -/
def execLdStVx (x : RegId) (s : State) : Result := completed { s with st := s.getV x }

end Sys2Proof.Machine
end

