-- ==== Sys2Proof/Machine/Engine.lean ====
section
/-! DEFINITION. The transitions of the engine other than an instruction: image load, timer tick, key arrival
(20_memory.md R87, 60_exceptions.md R230 to R234, 44_timers_input.md R204). -/

namespace Sys2Proof.Machine

/-- `Load(image)`, the transition out of status `Reset` (20_memory.md R87). -/
def loadImage (s : State) : State :=
  match s.inputs.image with
  | none => { s with status := .loadFailed .missing }
  | some image =>
    if 4096 - 512 < image.length then { s with status := .loadFailed .tooLarge }
    else { s with mem := Memory.putList s.params.font 512 image s.mem, status := .running }

/-- The delay timer's part of a tick: no wrap at 0 (60_exceptions.md R230). -/
def tickDelay (s : State) : State := if s.dt = 0#8 then s else { s with dt := s.dt - 1#8 }

/-- The sound timer's part of a tick: one pulse while non-zero before the decrement (60_exceptions.md R230, decision D14). -/
def tickSound (s : State) : State :=
  if s.st = 0#8 then s else { s with st := s.st - 1#8, outputs := s.outputs ++ [.tone] }

/-- `Tick()`: both timers on the same tick (60_exceptions.md R230). -/
def tick (s : State) : State := tickSound (tickDelay s)

/-- `KeyArrive(k)`: the wait of `Fx0A` completes (44_timers_input.md R204). -/
def keyArrive (x : RegId) (k : Nibble) (s : State) : State :=
  { advance (s.setV x (k.setWidth 8)) with status := .running }

/-- One step of a key wait: the host delivers a code, or nothing moves (44_timers_input.md R204, 60_exceptions.md R234). -/
def waitStep (x : RegId) (s : State) : State :=
  let asked := { s with inputs := s.inputs.dropKey }
  match s.inputs.nextKey with
  | some k => keyArrive x k asked
  | none => asked

/-- A gate has fired: the schedule moves on (60_exceptions.md R232). -/
def gateFired (s : State) : State := { s with inputs := s.inputs.dropActivity }

end Sys2Proof.Machine
end

