-- ==== Sys2Proof/Machine/Step.lean ====
section
/-! DEFINITION. One step of the machine: exactly one transition of 60_exceptions.md R232, or the load that starts it. -/

namespace Sys2Proof.Machine

/-- One firing of the fast gate: fetch, decode, execute; the meaning performs the advance (30_encoding.md R103). -/
def instructionStep (s : State) : Host.Outcome State Fault Refusal :=
  andThen (fetch s) fun w => exec (decodeWord w) s

/-- One transition. In a terminal status none is enabled and the step is a fault (60_exceptions.md R221, R232). -/
def step (s : State) : Host.Outcome State Fault Refusal :=
  match s.status with
  | .reset => .next (loadImage s)
  | .running =>
    match s.inputs.nextActivity with
    | .step => instructionStep (gateFired s)
    | .tick => .next (tick (gateFired s))
  | .waitKey x => .next (waitStep x s)
  | .faulted cause pc info => .fault (.fatal cause pc info)
  | .loadFailed reason => .fault (.neverStarted reason)

/-- The state with an instruction word placed where the next step fetches it: high byte at `pc` (20_memory.md R75), status
Running (this stands for the load, log 10) and the fast gate firing next (log 1). Where `pc` can fetch nothing (20_memory.md
R77) memory is left alone. -/
def State.withFetchWord (s : State) (nbits w : Nat) : State :=
  let word := BitVec.ofNat 16 (w % 2 ^ nbits)
  let placed :=
    if s.pc.toNat + 1 < 4096 then (s.setByte s.pc.toNat (highByte word)).setByte (s.pc.toNat + 1) (lowByte word) else s
  { placed with status := .running, inputs := { s.inputs with schedule := .step :: s.inputs.schedule } }

end Sys2Proof.Machine
end

