-- ==== Sys2Proof/Machine/Runs.lean ====
section
/-! DEFINITION. Runs under a given interleaving of steps and ticks, and the weak fairness of 60_exceptions.md R232. -/

namespace Sys2Proof.Machine

/-- The state, with this gate the next to fire while Running (60_exceptions.md R232). -/
def State.withGate (a : Activity) (s : State) : State := { s with inputs := { s.inputs with schedule := [a] } }

/-- `n` transitions from a state, `choice k` being the gate of transition `k` where the machine is Running then. In every other
status the choice is not looked at: the load and the key wait come from the state alone. -/
def runUnder (choice : Nat → Activity) : Nat → State → Result
  | 0, s => .next s
  | n + 1, s =>
    match runUnder choice n s with
    | .next t => step (t.withGate (choice n))
    | .fault r => .fault r
    | .refused r => .refused r

/-- After `n` transitions the machine is Running, so that both gates are enabled (60_exceptions.md R232). -/
def runningAt (choice : Nat → Activity) (n : Nat) (s : State) : Prop :=
  ∃ t, runUnder choice n s = .next t ∧ t.status = .running

/-- Weak fairness: a gate enabled continuously from some point on fires after it (60_exceptions.md R232, decision D15). A key
arrival has no fairness: a wait that lasts for ever is fair. -/
def fairRun (choice : Nat → Activity) (s : State) : Prop :=
  ∀ (a : Activity) (n : Nat), (∀ m, n ≤ m → runningAt choice m s) → ∃ m, n ≤ m ∧ choice m = a

end Sys2Proof.Machine
end

