-- ==== Sys2Proof/Safety.lean ====
section
/-! DEFINITION. What counts as a safe run and where a run ends (70_reset_and_hazards.md R270), and the terms the statements use. -/

namespace Sys2Proof.Machine

/-- A failed end: `Faulted` or `LoadFailed` (70_reset_and_hazards.md R270, end 1). -/
def State.failed (s : State) : Bool :=
  match s.status with
  | .faulted _ _ _ | .loadFailed _ => true
  | .reset | .running | .waitKey _ => false

/-- The idle end: Running at a jump to itself (70_reset_and_hazards.md R270, end 2). -/
def State.idle (s : State) : Bool :=
  s.status == .running &&
    match fetch s with
    | .ok w => decodeWord w == .jp (s.pc.setWidth 12)
    | .error _ => false

/-- A fair run that never reaches either end: a hang (70_reset_and_hazards.md R270, end 3). A run that starves a gate for ever is
no run of the chip and so no hang (60_exceptions.md R232). -/
def State.hangs (choice : Nat → Activity) (s : State) : Prop :=
  fairRun choice s ∧ ∀ n t, runUnder choice n s = .next t → t.failed = false ∧ t.idle = false

/-- A run of `n` steps that meets no fault. -/
def State.safeFor (n : Nat) (s : State) : Prop :=
  ∀ k, k ≤ n → ∃ t, Host.Core.run Sys2Proof.core k s = .next t ∧ t.failed = false

/-- Every byte of memory reads as before. -/
def SameMemory (s t : State) : Prop := ∀ a, t.byteAt a = s.byteAt a

/-- Every byte outside the `n` bytes from `base` on reads as before. -/
def SameMemoryOutside (base n : Nat) (s t : State) : Prop := ∀ a, a < base ∨ base + n ≤ a → t.byteAt a = s.byteAt a

/-- Only general registers changed, and the pc went on by 2. -/
def OnlyRegisters (s t : State) : Prop := t = { s with v := t.v, pc := s.pc + 2#16 } ∧ SameMemory s t

/-- Every general register but the listed ones reads as before. -/
def RegistersKept (changed : List RegId) (s t : State) : Prop := ∀ y, y ∉ changed → t.getV y = s.getV y

/-- The instruction word at the pc, high byte first (20_memory.md R75, R77). -/
def State.wordAtPc (s : State) : Word := joinBytes (s.byteAt s.pc.toNat) (s.byteAt (s.pc.toNat + 1))

/-- The step about to be taken runs this instruction: Running, the fast gate fires, the word at the pc can be fetched and
decodes to it (30_encoding.md R103). -/
def State.aboutToRun (s : State) (i : Instr) : Prop :=
  s.status = .running ∧ s.inputs.nextActivity = .step ∧ s.pc.toNat + 1 < 4096 ∧ decodeWord s.wordAtPc = i

/-- Is the pixel at `pos` under a set bit of the `n`-row sprite at `base`, drawn from (cx, cy) (43_display.md R192)? -/
def spriteCovers (s : State) (cx cy : Byte) (base n pos : Nat) : Bool :=
  (List.range n).any fun row => (List.range 8).any fun col =>
    spriteBit (s.byteAt (base + row)) col && pixelPosition cx cy row col == pos

/-- The timer tick, `n` times over (60_exceptions.md R230). -/
def ticks : Nat → State → State
  | 0, s => s
  | n + 1, s => ticks n (tick s)

/-- The machine's invariant: the memory keeps its canonical form, the reserved cause is never raised (10_state.md R34), and while
the machine has not failed (of a failed one only the status is read, 60_exceptions.md R222) the stack has at most 16 entries
(10_state.md R38), every entry is the address of a CALL that was fetched (40_control_flow.md R131), the pc goes no further
than the longest jump (40_control_flow.md R138), and a key wait stands at an instruction that was fetched
(44_timers_input.md R204). -/
structure State.Inv (s : State) : Prop where
  memory : Memory.wf s.params.font s.mem
  depth : s.failed = false → s.stack.length ≤ 16
  returns : s.failed = false → ∀ r ∈ s.stack, r.toNat ≤ 0x0FFE
  pcBound : s.failed = false → s.pc.toNat ≤ 0x10FE
  waiting : ∀ x, s.status = .waitKey x → s.pc.toNat ≤ 0x0FFE
  noRegRange : ∀ pc info, s.status ≠ .faulted .regRange pc info

end Sys2Proof.Machine
end

