-- ==== Sys2Proof/Certificates/Slice0/Obligations.lean ====
section
/-! DEFINITION. The statements for the provers. Each docstring names the rule of spec/ it formalises. A completed instruction is
stated as an existence (`exec i s = .next t` for a `t` of which everything is said). Of a state in which the machine has failed no
statement reads more than the status and the emitted diagnostic, as 60_exceptions.md R222 asks (log 9); the form of the memory
list is the model's own. D<n> is a decision of 92_eei_decisions.md, log <n> a row of notes/assumptions. -/

open Sys2Proof Sys2Proof.Machine

/-! ## Reset, load and the transitions of the engine -/

/-- 70_reset_and_hazards.md section 1, 10_state.md section 9: what `Init` leaves, for every parameter and outside world. The zeros of
V, I, DT, ST, the stack and FB are the spec's own decision D12 (log 5), the outside world of `State.reset` the model's choice
(log 10). -/
def Obligations.InitLeavesTheResetValues : Prop :=
  State.reset = State.init defaultParams Inputs.nothing ∧
  ∀ (p : Params) (n : Inputs) (s : State), s = State.init p n →
    s.pc = 512#16 ∧ (∀ x, s.getV x = 0#8) ∧ s.i = 0#16 ∧ s.dt = 0#8 ∧ s.st = 0#8 ∧ s.stack = [] ∧
    (∀ pos, s.pixel pos = false) ∧ s.status = .reset ∧ s.params = p ∧ s.outputs = [] ∧
    (∀ (a : Nat) (h : a < 80), s.byteAt a = p.font[a]) ∧ (∀ a, 80 ≤ a → s.byteAt a = 0#8)

/-- The invariant holds after `Init`. -/
def Obligations.InitSatisfiesTheInvariant : Prop :=
  State.reset.Inv ∧ ∀ (p : Params) (n : Inputs), (State.init p n).Inv

/-- Every step keeps the invariant: canonical memory, REG_RANGE never raised, and while the machine has not failed at most 16 stack
entries, each the address of a fetched CALL, the pc bounded, a key wait at a fetched instruction (10_state.md section 5, 20_memory.md section 1,
40_control_flow.md). -/
def Obligations.EveryStepKeepsTheInvariant : Prop :=
  ∀ s t : State, s.Inv → step s = .next t → t.Inv

/-- 20_memory.md section 5 (the size check is decision D20): the load out of status Reset: no image, an image of more than 3584
bytes, an image that fits. -/
def Obligations.LoadPutsTheImageAt512 : Prop :=
  ∀ s : State, s.status = .reset →
    (s.inputs.image = none → step s = .next { s with status := .loadFailed .missing }) ∧
    ∀ image, s.inputs.image = some image →
      (3584 < image.length → step s = .next { s with status := .loadFailed .tooLarge }) ∧
      (image.length ≤ 3584 → ∃ t, step s = .next t ∧ t = { s with mem := t.mem, status := .running } ∧
        (∀ (k : Nat) (h : k < image.length), t.byteAt (512 + k) = image[k]) ∧ SameMemoryOutside 512 image.length s t)

/-- 30_encoding.md R103, 20_memory.md R75, R77: while Running, when the fast gate fires and the two bytes at the pc decode to i, the
step is i's meaning, after the schedule has moved on. -/
def Obligations.StepRunsTheDecodedInstruction : Prop :=
  ∀ (s : State) (i : Instr), s.status = .running → s.inputs.nextActivity = .step → s.pc.toNat + 1 < 4096 →
    decode [s.byteAt s.pc.toNat, s.byteAt (s.pc.toNat + 1)] = .ok (i, []) →
    i.wf = true ∧ step s = exec i { s with inputs := s.inputs.dropActivity }

/-- 20_memory.md section 2, 60_exceptions.md section 2: a fetch at pc with pc + 1 of 4096 or more faults before any decode
(the cause's own name is decision D5). -/
def Obligations.FetchPastMemoryFaults : Prop :=
  ∀ s : State, s.status = .running → s.inputs.nextActivity = .step → 4096 ≤ s.pc.toNat + 1 →
    ∃ t, step s = .next t ∧ t.status = .faulted .fetchRange s.pc .pcOnly ∧
      t.outputs = s.outputs ++ [.diagnostic .fetchRange s.pc .pcOnly]

/-- 60_exceptions.md section 1 and section 4: in a terminal status no transition is enabled; the model's step is a fault there. -/
def Obligations.TerminalStatusEnablesNothing : Prop :=
  ∀ s : State,
    (∀ c pc f, s.status = .faulted c pc f → step s = .fault (.fatal c pc f)) ∧
    (∀ r, s.status = .loadFailed r → step s = .fault (.neverStarted r))

/-- 60_exceptions.md section 3 (the pulse's place is decision D14): one tick. -/
def Obligations.TickCountsBothTimersDown : Prop :=
  ∀ s : State, s.status = .running → s.inputs.nextActivity = .tick →
    ∃ t, step s = .next t ∧ t.dt.toNat = s.dt.toNat - 1 ∧ t.st.toNat = s.st.toNat - 1 ∧
      t.outputs = s.outputs ++ (if s.st = 0#8 then [] else [.tone]) ∧ SameMemory s t ∧
      t = { s with dt := t.dt, st := t.st, outputs := t.outputs, inputs := s.inputs.dropActivity }

/-- 44_timers_input.md R206 with 60_exceptions.md section 3 (decision D14): a sound timer of v gives exactly v pulses over the next
v ticks and no more after them; the delay timer stops at 0. -/
def Obligations.SoundTimerOfVGivesVPulses : Prop :=
  ∀ (n : Nat) (s : State),
    (ticks n s).outputs = s.outputs ++ List.replicate (min n s.st.toNat) Output.tone ∧
    (ticks n s).st.toNat = s.st.toNat - n ∧ (ticks n s).dt.toNat = s.dt.toNat - n

/-- 60_exceptions.md R234, R238: while the machine waits for a key, whatever the step does, no instruction executes and no tick: DT
and ST keep their values, no pulse is emitted, and every other piece of state is as before but for V[x], the pc and the status
at a key arrival. That a step in which no key has come changes nothing is the model's choice (log 32). -/
def Obligations.KeyWaitFreezesTheMachine : Prop :=
  ∀ (s t : State) (x : RegId), s.status = .waitKey x → step s = .next t →
    t.dt = s.dt ∧ t.st = s.st ∧ t.outputs = s.outputs ∧ t.i = s.i ∧ t.stack = s.stack ∧ t.fb = s.fb ∧
    SameMemory s t ∧ RegistersKept [x] s t ∧
    (t = { s with inputs := t.inputs } ∨
      t = { s with v := t.v, pc := s.pc + 2#16, status := .running, inputs := t.inputs })

/-- 44_timers_input.md section 'LD Vx, K', the KeyArrive transition, and the step of a wait in which no key has come. -/
def Obligations.KeyArrivalCompletesTheWait : Prop :=
  ∀ (s : State) (x : RegId), s.status = .waitKey x →
    (s.inputs.nextKey = none → step s = .next { s with inputs := s.inputs.dropKey }) ∧
    ∀ k, s.inputs.nextKey = some k → ∃ t, step s = .next t ∧
      (t.getV x).toNat = k.toNat ∧ RegistersKept [x] s t ∧ SameMemory s t ∧
      t = { s with v := t.v, pc := s.pc + 2#16, status := .running, inputs := s.inputs.dropKey }

/-! ## Encoding -/

/-- 30_encoding.md section 3: decoding the word or the bytes of a well-formed instruction gives it back, every operand at every
value, and consumes exactly 2 bytes. -/
def Obligations.DecodeOfEncodeIsTheInstruction : Prop :=
  ∀ (i : Instr) (rest : List Byte), i.wf = true →
    decodeWord (encode i) = i ∧ decode (encodeBytes i ++ rest) = .ok (i, rest)

/-- 30_encoding.md section 3: every word decodes to a well-formed instruction, so no word is illegal. That encoding gives the word
back, so that no bit of one is lost, rests on the model's choice to keep the ignored fields of `5xyN`, `9xyN` and the no-op
words in the instruction (log 26). -/
def Obligations.EncodeOfDecodeIsTheWord : Prop :=
  ∀ w : Word, (decodeWord w).wf = true ∧ encode (decodeWord w) = w

/-- 30_encoding.md section 5: the opcode map, read by priority, mask and match, selects the row of the instruction the decoder
gives (the family-8 sub-opcodes are decision D21). -/
def Obligations.OpcodeMapSelectsTheDecodedRow : Prop :=
  ∀ w : Word, (selectedRow w).map (fun r => r.mnemonic) = some (decodeWord w).mnemonic

/-- 30_encoding.md section 5, 95_test_vectors.md: some words written out from their encodings (that 8F14 is ADD is decision D21,
log 20). -/
def Obligations.WordsWrittenOutDecode : Prop :=
  decodeWord 0b0000000011101110#16 = .ret ∧ decodeWord 0b0001001000110100#16 = .jp 0x234#12 ∧
  decodeWord 0b0101000100100111#16 = .seReg 1#4 2#4 7#4 ∧ decodeWord 0b0111101011111111#16 = .addImm 10#4 0xFF#8 ∧
  decodeWord 0b1000111100010100#16 = .addReg 15#4 1#4 ∧ decodeWord 0b1101000000010101#16 = .drw 0#4 1#4 5#4 ∧
  decodeWord 0b1110010110100001#16 = .sknp 5#4 ∧ decodeWord 0b1111001001100101#16 = .ldLoad 2#4 ∧
  decodeWord 0b1110000110011111#16 = .nopE 1#4 0x9F#8

/-! ## Control flow -/

/-- 40_control_flow.md R131: RET goes to the entry popped plus 2; on an empty stack it faults. -/
def Obligations.RetReturnsOrUnderflows : Prop :=
  ∀ s : State,
    (∀ (rest : List Word) (r : Word), s.stack = rest ++ [r] →
      ∃ t, exec .ret s = .next t ∧ t.pc.toNat = (r.toNat + 2) % 65536 ∧ t.stack = rest ∧ SameMemory s t ∧
        t = { s with pc := t.pc, stack := t.stack }) ∧
    (s.stack = [] → ∃ t, exec .ret s = .next t ∧ t.status = .faulted .stackUnderflow s.pc .pcOnly)

/-- 40_control_flow.md R132: `1nnn` lands exactly on nnn. -/
def Obligations.JpLandsOnItsTarget : Prop :=
  ∀ (nnn : Addr12) (s : State), decodeWord (wordAddr 1#4 nnn) = .jp nnn ∧
    ∃ t, exec (.jp nnn) s = .next t ∧ t.pc.toNat = nnn.toNat ∧ SameMemory s t ∧ t = { s with pc := t.pc }

/-- 40_control_flow.md R133: CALL pushes its own address and lands on nnn; with 16 entries it faults. That it faults also with more
than 16, in states no run reaches, is the model's choice (log 27). -/
def Obligations.CallPushesItsOwnAddressOrOverflows : Prop :=
  ∀ (nnn : Addr12) (s : State),
    (s.stack.length < 16 → ∃ t, exec (.call nnn) s = .next t ∧ t.pc.toNat = nnn.toNat ∧ t.stack = s.stack ++ [s.pc] ∧
      SameMemory s t ∧ t = { s with pc := t.pc, stack := t.stack }) ∧
    (16 ≤ s.stack.length → ∃ t, exec (.call nnn) s = .next t ∧ t.status = .faulted .stackOverflow s.pc .pcOnly)

/-- 40_control_flow.md R134, R135: `3xkk` and `4xkk`, the skips that compare with a literal, move the pc by 4 or by 2. -/
def Obligations.SkipsOnLiteralMoveThePc : Prop :=
  ∀ (x : RegId) (kk : Byte) (s : State),
    decodeWord (wordXKK 3#4 x kk) = .seImm x kk ∧ decodeWord (wordXKK 4#4 x kk) = .sneImm x kk ∧
    (∃ t, exec (.seImm x kk) s = .next t ∧ t = { s with pc := t.pc } ∧ SameMemory s t ∧
      t.pc.toNat = (s.pc.toNat + if s.getV x = kk then 4 else 2) % 65536) ∧
    (∃ t, exec (.sneImm x kk) s = .next t ∧ t = { s with pc := t.pc } ∧ SameMemory s t ∧
      t.pc.toNat = (s.pc.toNat + if s.getV x = kk then 2 else 4) % 65536)

/-- 40_control_flow.md R136, R137: `5xyn` and `9xyn`, the skips that compare two registers, for every low nibble. -/
def Obligations.SkipsOnRegistersMoveThePc : Prop :=
  ∀ (x y : RegId) (n : Nibble) (s : State),
    decodeWord (wordXYN 5#4 x y n) = .seReg x y n ∧ decodeWord (wordXYN 9#4 x y n) = .sneReg x y n ∧
    (∃ t, exec (.seReg x y n) s = .next t ∧ t = { s with pc := t.pc } ∧ SameMemory s t ∧
      t.pc.toNat = (s.pc.toNat + if s.getV x = s.getV y then 4 else 2) % 65536) ∧
    (∃ t, exec (.sneReg x y n) s = .next t ∧ t = { s with pc := t.pc } ∧ SameMemory s t ∧
      t.pc.toNat = (s.pc.toNat + if s.getV x = s.getV y then 2 else 4) % 65536)

/-- 40_control_flow.md section 'JP V0, addr: Bnnn': lands on nnn + V0; that the sum is not wrapped to 12 bits is decision D3
(90_conflicts.md C3, log 19). -/
def Obligations.JpV0LandsOnTheSum : Prop :=
  ∀ (nnn : Addr12) (s : State), decodeWord (wordAddr 11#4 nnn) = .jpV0 nnn ∧
    ∃ t, exec (.jpV0 nnn) s = .next t ∧ t.pc.toNat = nnn.toNat + (s.getV 0#4).toNat ∧ SameMemory s t ∧
      t = { s with pc := t.pc }

/-- 40_control_flow.md R139: `0nnn` but for `00E0` and `00EE` is SYS, which changes nothing but the pc; and so do the family no-ops
of 30_encoding.md R106. -/
def Obligations.NoOpsOnlyAdvance : Prop :=
  (∀ nnn : Addr12, nnn ≠ 0x0E0#12 → nnn ≠ 0x0EE#12 → decodeWord (wordAddr 0#4 nnn) = .sys nnn) ∧
  ∀ (s : State) (i : Instr),
    (∃ nnn, i = .sys nnn) ∨ (∃ x y n, i = .nop8 x y n) ∨ (∃ x kk, i = .nopE x kk) ∨ (∃ x kk, i = .nopF x kk) →
    ∃ t, exec i s = .next t ∧ t = { s with pc := t.pc } ∧ SameMemory s t ∧ t.pc.toNat = (s.pc.toNat + 2) % 65536

/-- 40_control_flow.md R131, R133: after a CALL that pushed, a RET with the same stack goes on after the CALL and restores the
stack. -/
def Obligations.ReturnComesBackAfterTheCall : Prop :=
  ∀ (nnn : Addr12) (s t u : State), s.stack.length < 16 → exec (.call nnn) s = .next t → u.stack = t.stack →
    ∃ r, exec .ret u = .next r ∧ r.pc.toNat = (s.pc.toNat + 2) % 65536 ∧ r.stack = s.stack

/-- 70_reset_and_hazards.md section 4: the idle end is a jump to itself: a step leaves everything as it is but the schedule. -/
def Obligations.IdleStepChangesNothing : Prop :=
  ∀ s : State, s.idle = true → s.inputs.nextActivity = .step →
    step s = .next { s with inputs := s.inputs.dropActivity }

/-! ## Arithmetic and logic -/

/-- 41_alu.md R150, R151: `6xkk`, the literal load, and `7xkk`, the literal add modulo 256 with no flag (VF is written only as x). -/
def Obligations.LiteralLoadAndAdd : Prop :=
  ∀ (x : RegId) (kk : Byte) (s : State),
    decodeWord (wordXKK 6#4 x kk) = .ldImm x kk ∧ decodeWord (wordXKK 7#4 x kk) = .addImm x kk ∧
    (∃ t, exec (.ldImm x kk) s = .next t ∧ OnlyRegisters s t ∧ RegistersKept [x] s t ∧ t.getV x = kk) ∧
    (∃ t, exec (.addImm x kk) s = .next t ∧ OnlyRegisters s t ∧ RegistersKept [x] s t ∧
      (t.getV x).toNat = ((s.getV x).toNat + kk.toNat) % 256)

/-- 41_alu.md R154, R155, R156: the logic operations bit by bit, with no flag; and the copy `8xy0` of 41_alu.md R153. -/
def Obligations.CopyAndLogicWriteNoFlag : Prop :=
  ∀ (x y : RegId) (s : State),
    (∃ t, exec (.ldReg x y) s = .next t ∧ OnlyRegisters s t ∧ RegistersKept [x] s t ∧ t.getV x = s.getV y) ∧
    (∃ t, exec (.or x y) s = .next t ∧ OnlyRegisters s t ∧ RegistersKept [x] s t ∧
      ∀ b, b < 8 → (t.getV x).getLsbD b = ((s.getV x).getLsbD b || (s.getV y).getLsbD b)) ∧
    (∃ t, exec (.and x y) s = .next t ∧ OnlyRegisters s t ∧ RegistersKept [x] s t ∧
      ∀ b, b < 8 → (t.getV x).getLsbD b = ((s.getV x).getLsbD b && (s.getV y).getLsbD b)) ∧
    (∃ t, exec (.xor x y) s = .next t ∧ OnlyRegisters s t ∧ RegistersKept [x] s t ∧
      ∀ b, b < 8 → (t.getV x).getLsbD b = ((s.getV x).getLsbD b ^^ (s.getV y).getLsbD b))

/-- 41_alu.md section 'ADD Vx, Vy: 8xy4'; for x = F the flag stands (decision D7, log 14). -/
def Obligations.AddRegSumsAndCarries : Prop :=
  ∀ (x y : RegId) (s : State),
    ∃ t, exec (.addReg x y) s = .next t ∧ OnlyRegisters s t ∧ RegistersKept [x, vf] s t ∧
      (x ≠ vf → (t.getV x).toNat = ((s.getV x).toNat + (s.getV y).toNat) % 256) ∧
      (t.getV vf).toNat = if (s.getV x).toNat + (s.getV y).toNat > 255 then 1 else 0

/-- 41_alu.md sections 'SUB Vx, Vy: 8xy5' and 'SUBN Vx, Vy: 8xy7' (the roles are decision D22); for x = F the flag stands
(decision D7, log 14). -/
def Obligations.SubAndSubnBorrow : Prop :=
  ∀ (x y : RegId) (s : State),
    (∃ t, exec (.sub x y) s = .next t ∧ OnlyRegisters s t ∧ RegistersKept [x, vf] s t ∧
      (x ≠ vf → ((t.getV x).toNat : Int) = ((s.getV x).toNat - (s.getV y).toNat : Int) % 256) ∧
      (t.getV vf).toNat = if (s.getV x).toNat < (s.getV y).toNat then 0 else 1) ∧
    (∃ t, exec (.subn x y) s = .next t ∧ OnlyRegisters s t ∧ RegistersKept [x, vf] s t ∧
      (x ≠ vf → ((t.getV x).toNat : Int) = ((s.getV y).toNat - (s.getV x).toNat : Int) % 256) ∧
      (t.getV vf).toNat = if (s.getV y).toNat < (s.getV x).toNat then 0 else 1)

/-- 41_alu.md sections 'SHR' and 'SHL': in place, y ignored; SHL's flag in both modes of the parameter (decision D8, log 7); for
x = F the flag stands (decision D7, log 14). -/
def Obligations.ShiftsInPlaceIgnoreY : Prop :=
  ∀ (x y : RegId) (s : State),
    (∃ t, exec (.shr x y) s = .next t ∧ OnlyRegisters s t ∧ RegistersKept [x, vf] s t ∧
      (x ≠ vf → (t.getV x).toNat = (s.getV x).toNat / 2) ∧ (t.getV vf).toNat = (s.getV x).toNat % 2) ∧
    (∃ t, exec (.shl x y) s = .next t ∧ OnlyRegisters s t ∧ RegistersKept [x, vf] s t ∧
      (x ≠ vf → (t.getV x).toNat = (s.getV x).toNat * 2 % 256) ∧
      (s.params.shlFlagMode = .zero → (t.getV vf).toNat = 0) ∧
      (s.params.shlFlagMode = .msb → (t.getV vf).toNat = (s.getV x).toNat / 128))

/-- 41_alu.md R162: some byte masked by kk; the byte is the next draw of the input stream where there is one (log 2). -/
def Obligations.RndMasksADraw : Prop :=
  ∀ (x : RegId) (kk : Byte) (s : State),
    ∃ (t : State) (r : Byte), exec (.rnd x kk) s = .next t ∧ t.getV x = r &&& kk ∧ RegistersKept [x] s t ∧ SameMemory s t ∧
      t = { s with v := t.v, pc := s.pc + 2#16, inputs := t.inputs } ∧
      (∀ b, b < 8 → kk.getLsbD b = false → (t.getV x).getLsbD b = false) ∧
      (∀ d ds, s.inputs.rng = d :: ds → r = d ∧ t.inputs = { s.inputs with rng := ds })

/-! ## The address register and memory -/

/-- 42_index_memory.md R170, R172: `Annn` sets I to the literal, `Fx29` to the glyph address of the low nibble. -/
def Obligations.LdIAndLdFSetTheAddress : Prop :=
  ∀ (nnn : Addr12) (x : RegId) (s : State),
    decodeWord (wordAddr 10#4 nnn) = .ldI nnn ∧ decodeWord (wordXKK 15#4 x 0x29#8) = .ldF x ∧
    (∃ t, exec (.ldI nnn) s = .next t ∧ t.i.toNat = nnn.toNat ∧ SameMemory s t ∧
      t = { s with i := t.i, pc := s.pc + 2#16 }) ∧
    (∃ t, exec (.ldF x) s = .next t ∧ t.i.toNat = (s.getV x).toNat % 16 * 5 ∧ SameMemory s t ∧
      t = { s with i := t.i, pc := s.pc + 2#16 })

/-- 42_index_memory.md section 'ADD I, Vx' (decision D11): modulo 2^16, no flag, no fault. -/
def Obligations.AddIWrapsAt16Bits : Prop :=
  ∀ (x : RegId) (s : State),
    ∃ t, exec (.addI x) s = .next t ∧ t.i.toNat = (s.i.toNat + (s.getV x).toNat) % 65536 ∧ SameMemory s t ∧
      t = { s with i := t.i, pc := s.pc + 2#16 }

/-- 42_index_memory.md section 'LD B, Vx' (decisions D10, D29): the three digits, I unchanged; or the write fault of the first
address of 4096 or more. -/
def Obligations.LdBStoresTheDecimalDigits : Prop :=
  ∀ (x : RegId) (s : State),
    (effectiveAddress s 2 < 4096 → ∃ t, exec (.ldB x) s = .next t ∧
      (t.byteAt (effectiveAddress s 0)).toNat = (s.getV x).toNat / 100 ∧
      (t.byteAt (effectiveAddress s 1)).toNat = (s.getV x).toNat / 10 % 10 ∧
      (t.byteAt (effectiveAddress s 2)).toNat = (s.getV x).toNat % 10 ∧
      SameMemoryOutside (effectiveAddress s 0) 3 s t ∧ t = { s with mem := t.mem, pc := s.pc + 2#16 }) ∧
    (4096 ≤ effectiveAddress s 2 → ∃ t, exec (.ldB x) s = .next t ∧
      t.status = .faulted .writeRange s.pc (.addr (max (effectiveAddress s 0) 4096)))

/-- 42_index_memory.md section 'LD [I], Vx' (decisions D10, D29): V0 to Vx at I and up, I unchanged; or the write fault of the first
address of 4096 or more. -/
def Obligations.LdStoreStoresV0ToVx : Prop :=
  ∀ (x : RegId) (s : State),
    (effectiveAddress s x.toNat < 4096 → ∃ t, exec (.ldStore x) s = .next t ∧
      (∀ r : RegId, r.toNat ≤ x.toNat → t.byteAt (effectiveAddress s r.toNat) = s.getV r) ∧
      SameMemoryOutside (effectiveAddress s 0) (x.toNat + 1) s t ∧ t = { s with mem := t.mem, pc := s.pc + 2#16 }) ∧
    (4096 ≤ effectiveAddress s x.toNat → ∃ t, exec (.ldStore x) s = .next t ∧
      t.status = .faulted .writeRange s.pc (.addr (max (effectiveAddress s 0) 4096)))

/-- 42_index_memory.md section 'LD Vx, [I]' (decisions D10, D29): V0 to Vx from I and up, I unchanged; or the read fault of the
first address of 4096 or more. -/
def Obligations.LdLoadLoadsV0ToVx : Prop :=
  ∀ (x : RegId) (s : State),
    (effectiveAddress s x.toNat < 4096 → ∃ t, exec (.ldLoad x) s = .next t ∧ OnlyRegisters s t ∧
      (∀ r : RegId, r.toNat ≤ x.toNat → t.getV r = s.byteAt (effectiveAddress s r.toNat)) ∧
      (∀ r : RegId, x.toNat < r.toNat → t.getV r = s.getV r)) ∧
    (4096 ≤ effectiveAddress s x.toNat → ∃ t, exec (.ldLoad x) s = .next t ∧
      t.status = .faulted .readRange s.pc (.addr (max (effectiveAddress s 0) 4096)))

/-- 20_memory.md sections 2 and 4, 70_reset_and_hazards.md section 2: two registers stored are, joined high byte first, the word a
fetch from there reads at once. -/
def Obligations.StoredWordIsFetchedAtOnce : Prop :=
  ∀ (x : RegId) (s t : State), 1 ≤ x.toNat → effectiveAddress s x.toNat < 4096 → exec (.ldStore x) s = .next t →
    fetch { t with pc := s.i } = .ok (joinBytes (s.getV 0#4) (s.getV 1#4))

/-! ## Display -/

/-- 43_display.md R191: `00E0`: every pixel is cleared, every register and VF unchanged. -/
def Obligations.ClsClearsEveryPixel : Prop :=
  decodeWord 0x00E0#16 = .cls ∧ ∀ s : State, ∃ t, exec .cls s = .next t ∧ (∀ pos, pos < 2048 → t.pixel pos = false) ∧ SameMemory s t ∧
    t = { s with fb := t.fb, pc := s.pc + 2#16 }

/-- 43_display.md section 'DRW' (decisions D9, D22, D23): a sprite whose bytes are in memory: every pixel under a set bit is
flipped, VF tells whether one of them was set, nothing else changes. -/
def Obligations.DrwFlipsThePixelsUnderTheSprite : Prop :=
  ∀ (x y : RegId) (n : Nibble) (s : State), n = 0#4 ∨ effectiveAddress s n.toNat ≤ 4096 →
    ∃ t, exec (.drw x y n) s = .next t ∧
      (∀ pos, pos < 2048 → t.pixel pos =
        (s.pixel pos ^^ spriteCovers s (s.getV x) (s.getV y) (effectiveAddress s 0) n.toNat pos)) ∧
      (t.getV vf = 0#8 ∨ t.getV vf = 1#8) ∧
      (t.getV vf = 1#8 ↔ ∃ pos, pos < 2048 ∧ s.pixel pos = true ∧
        spriteCovers s (s.getV x) (s.getV y) (effectiveAddress s 0) n.toNat pos = true) ∧
      RegistersKept [vf] s t ∧ SameMemory s t ∧ t = { s with v := t.v, fb := t.fb, pc := s.pc + 2#16 }

/-- 43_display.md section 'DRW' (decisions D5, D29): a sprite byte at 4096 or above is a read fault. -/
def Obligations.DrwFaultsPastMemory : Prop :=
  ∀ (x y : RegId) (n : Nibble) (s : State), n ≠ 0#4 → 4096 < effectiveAddress s n.toNat →
    ∃ t, exec (.drw x y n) s = .next t ∧
      t.status = .faulted .readRange s.pc (.addr (max (effectiveAddress s 0) 4096))

/-- 43_display.md section 'DRW', its first property: the same draw twice, with V[x], V[y], I, the sprite bytes and the pixels unchanged
between and neither x nor y being F, restores every pixel; the second VF is 1 iff the first draw set a pixel. -/
def Obligations.DrawingTwiceRestoresTheScreen : Prop :=
  ∀ (x y : RegId) (n : Nibble) (s t u : State), x ≠ vf → y ≠ vf → n = 0#4 ∨ effectiveAddress s n.toNat ≤ 4096 →
    exec (.drw x y n) s = .next t → u.fb = t.fb → u.getV x = s.getV x → u.getV y = s.getV y → u.i = s.i →
    (∀ k, k < n.toNat → u.byteAt (effectiveAddress s k) = s.byteAt (effectiveAddress s k)) →
    ∃ r, exec (.drw x y n) u = .next r ∧ (∀ pos, pos < 2048 → r.pixel pos = s.pixel pos) ∧
      (r.getV vf = 1#8 ↔ ∃ pos, pos < 2048 ∧ s.pixel pos = false ∧ t.pixel pos = true)

/-! ## Keys and timers -/

/-- 44_timers_input.md sections 'SKP' and 'SKNP' (the fault is decision D6): the skip follows the poll's answer; a key value above 15
faults. -/
def Obligations.KeySkipsFollowThePoll : Prop :=
  ∀ (x : RegId) (s : State),
    ((s.getV x).toNat ≤ 15 →
      (∃ t, exec (.skp x) s = .next t ∧ t = { s with pc := t.pc, inputs := s.inputs.dropPoll } ∧ SameMemory s t ∧
        t.pc.toNat = (s.pc.toNat + if s.inputs.nextPoll then 4 else 2) % 65536) ∧
      (∃ t, exec (.sknp x) s = .next t ∧ t = { s with pc := t.pc, inputs := s.inputs.dropPoll } ∧ SameMemory s t ∧
        t.pc.toNat = (s.pc.toNat + if s.inputs.nextPoll then 2 else 4) % 65536)) ∧
    (15 < (s.getV x).toNat →
      (∃ t, exec (.skp x) s = .next t ∧ t.status = .faulted .keyRange s.pc (.key (s.getV x))) ∧
      (∃ t, exec (.sknp x) s = .next t ∧ t.status = .faulted .keyRange s.pc (.key (s.getV x))))

/-- 44_timers_input.md R203, R205: `Fx07` reads the delay timer and `Fx15` writes it. -/
def Obligations.DelayTimerReadAndWrite : Prop :=
  ∀ (x : RegId) (s : State),
    decodeWord (wordXKK 15#4 x 0x07#8) = .ldVxDt x ∧ decodeWord (wordXKK 15#4 x 0x15#8) = .ldDtVx x ∧
    (∃ t, exec (.ldVxDt x) s = .next t ∧ OnlyRegisters s t ∧ RegistersKept [x] s t ∧ t.getV x = s.dt) ∧
    (∃ t, exec (.ldDtVx x) s = .next t ∧ t.dt = s.getV x ∧ SameMemory s t ∧
      t = { s with dt := t.dt, pc := s.pc + 2#16 })

/-- 44_timers_input.md section 'LD ST, Vx': the sound timer is written. -/
def Obligations.SoundTimerWrite : Prop :=
  ∀ (x : RegId) (s : State),
    ∃ t, exec (.ldStVx x) s = .next t ∧ t.st = s.getV x ∧ SameMemory s t ∧ t = { s with st := t.st, pc := s.pc + 2#16 }

/-- 44_timers_input.md section 'LD Vx, K': the wait begins, the pc stays and nothing else moves. -/
def Obligations.LdVxKBeginsTheWait : Prop :=
  ∀ (x : RegId) (s : State),
    ∃ t, exec (.ldVxK x) s = .next t ∧ t.status = .waitKey x ∧ t.pc = s.pc ∧ SameMemory s t ∧ RegistersKept [] s t ∧
      t = { s with status := t.status }

/-! ## Rules about the whole machine -/

/-- 30_encoding.md section 3, 60_exceptions.md section 2: no instruction is illegal or privileged: each answers a next state from
every state. -/
def Obligations.EveryInstructionAnswersANextState : Prop :=
  ∀ (i : Instr) (s : State), ∃ t, exec i s = .next t

/-- 10_state.md section 3: only `Annn`, `Fx1E` and `Fx29` write I, and `Dxyn` does not; that `Fx33`, `Fx55` and `Fx65` do not is
decision D10 (log 16). -/
def Obligations.OnlyThreeInstructionsWriteI : Prop :=
  ∀ s t : State, step s = .next t → t.failed = false → t.i ≠ s.i →
    (∃ nnn, s.aboutToRun (.ldI nnn)) ∨ (∃ x, s.aboutToRun (.addI x)) ∨ (∃ x, s.aboutToRun (.ldF x))

/-- 10_state.md section 5: only `2nnn` and `00EE` reach the stack. -/
def Obligations.OnlyCallAndRetReachTheStack : Prop :=
  ∀ s t : State, step s = .next t → t.failed = false → t.stack ≠ s.stack →
    (∃ nnn, s.aboutToRun (.call nnn)) ∨ s.aboutToRun .ret

/-- 10_state.md section 7: only `00E0` and `Dxyn` change the framebuffer. -/
def Obligations.OnlyClsAndDrwChangePixels : Prop :=
  ∀ (s t : State) (pos : Nat), step s = .next t → t.failed = false → t.pixel pos ≠ s.pixel pos →
    s.aboutToRun .cls ∨ ∃ x y n, s.aboutToRun (.drw x y n)

/-- 20_memory.md section 1: the only writers of memory are `Fx33`, `Fx55` and the image load, each within its own bytes. -/
def Obligations.OnlyTwoInstructionsAndTheLoadWriteMemory : Prop :=
  ∀ (s t : State) (a : Nat), step s = .next t → t.failed = false → t.byteAt a ≠ s.byteAt a →
    a < 4096 ∧
    ((∃ x, s.aboutToRun (.ldB x) ∧ effectiveAddress s 0 ≤ a ∧ a ≤ effectiveAddress s 2) ∨
      (∃ x : RegId, s.aboutToRun (.ldStore x) ∧ effectiveAddress s 0 ≤ a ∧ a ≤ effectiveAddress s x.toNat) ∨
      (s.status = .reset ∧ 512 ≤ a))

/-- 70_reset_and_hazards.md section 2, 10_state.md section 6: DT rises only by `Fx15`, ST only by `Fx18`. -/
def Obligations.TimersRiseOnlyByTheirWrite : Prop :=
  ∀ s t : State, step s = .next t → t.failed = false →
    (s.dt.toNat < t.dt.toNat → ∃ x, s.aboutToRun (.ldDtVx x)) ∧
    (s.st.toNat < t.st.toNat → ∃ x, s.aboutToRun (.ldStVx x))

/-- 10_state.md section 2: VF changes only as a flag of the six flag-writing instructions or as the plain destination F; that `Fx1E`
writes no flag is decision D11 (log 17). -/
def Obligations.VfChangesOnlyAsFlagOrDestination : Prop :=
  ∀ s t : State, step s = .next t → t.failed = false → t.getV vf ≠ s.getV vf →
    s.status = .waitKey vf ∨ ∃ i, s.aboutToRun i ∧
      ((∃ x y, i = .addReg x y ∨ i = .sub x y ∨ i = .shr x y ∨ i = .subn x y ∨ i = .shl x y) ∨
        (∃ x y n, i = .drw x y n) ∨
        (∃ kk, i = .ldImm vf kk ∨ i = .addImm vf kk ∨ i = .rnd vf kk) ∨
        (∃ y, i = .ldReg vf y ∨ i = .or vf y ∨ i = .and vf y ∨ i = .xor vf y) ∨
        i = .ldVxDt vf ∨ i = .ldLoad vf)

/-- 60_exceptions.md section 1 (the names and codes are decision D5, log 8; that a CALL with more than 16 entries faults is log 27;
the key range is decision D6, log 18; unwrapped addresses are decision D3, log 19; the order of accesses is decision D29,
log 9): which instruction raises which cause and on what condition, the status records the faulting pc and the first address
of 4096 or more, and the diagnostic is emitted. -/
def Obligations.EachCauseHasItsRaisers : Prop :=
  ∀ (i : Instr) (s t : State) (c : Cause) (pc : Word) (f : FaultInfo), s.status = .running → exec i s = .next t →
    t.status = .faulted c pc f → pc = s.pc ∧ t.outputs = s.outputs ++ [.diagnostic c s.pc f] ∧
      ((∃ nnn, i = .call nnn ∧ c = .stackOverflow ∧ f = .pcOnly ∧ 16 ≤ s.stack.length) ∨
        (i = .ret ∧ c = .stackUnderflow ∧ f = .pcOnly ∧ s.stack = []) ∨
        (∃ x y n, i = .drw x y n ∧ c = .readRange ∧ f = .addr (max (effectiveAddress s 0) 4096) ∧
          n ≠ 0#4 ∧ 4096 < effectiveAddress s n.toNat) ∨
        (∃ x, i = .ldLoad x ∧ c = .readRange ∧ f = .addr (max (effectiveAddress s 0) 4096) ∧
          4096 ≤ effectiveAddress s x.toNat) ∨
        (∃ x, i = .ldB x ∧ c = .writeRange ∧ f = .addr (max (effectiveAddress s 0) 4096) ∧ 4096 ≤ effectiveAddress s 2) ∨
        (∃ x, i = .ldStore x ∧ c = .writeRange ∧ f = .addr (max (effectiveAddress s 0) 4096) ∧
          4096 ≤ effectiveAddress s x.toNat) ∨
        (∃ x, (i = .skp x ∨ i = .sknp x) ∧ c = .keyRange ∧ f = .key (s.getV x) ∧ 15 < (s.getV x).toNat))

/-- 10_state.md section 8: how the status moves: Running is left only into a key wait by `Fx0A` or into a fault, a wait only into
Running, Reset only by the load. -/
def Obligations.StatusMovesAsItsTableSays : Prop :=
  ∀ s t : State, step s = .next t →
    (s.status = .running → t.status = .running ∨ (∃ x, s.aboutToRun (.ldVxK x) ∧ t.status = .waitKey x) ∨
      ∃ c f, t.status = .faulted c s.pc f) ∧
    (∀ x, s.status = .waitKey x → t.status = .waitKey x ∨ t.status = .running) ∧
    (s.status = .reset → t.status = .running ∨ ∃ r, t.status = .loadFailed r)

/-- 00_scope.md section 3: no step changes the parameters, and the log of outputs only grows. -/
def Obligations.ParametersStayAndOutputsGrow : Prop :=
  ∀ s t : State, step s = .next t → t.params = s.params ∧ ∃ more, t.outputs = s.outputs ++ more

/-! ## Fair runs -/

/-- 60_exceptions.md sections 3 and 4, 70_reset_and_hazards.md section 4 (the idle end is decision D27, fairness decision D15, the
pulses decision D14): on a fair run from an idle state both gates fire again and again, and a point comes at which the
machine is still idle, both timers are 0, and the sound timer has given all its pulses. -/
def Obligations.FairIdleRunCountsTheTimersDown : Prop :=
  ∀ (choice : Nat → Activity) (s : State), s.idle = true → fairRun choice s →
    (∀ (a : Activity) (n : Nat), ∃ m, n ≤ m ∧ choice m = a) ∧
    ∃ n t, runUnder choice n s = .next t ∧ t.idle = true ∧ t.dt = 0#8 ∧ t.st = 0#8 ∧
      t.outputs = s.outputs ++ List.replicate s.st.toNat Output.tone ∧ SameMemory s t ∧
      t = { s with dt := t.dt, st := t.st, outputs := t.outputs, inputs := t.inputs }

/-- 60_exceptions.md section 4, 70_reset_and_hazards.md section 4 (fairness is decision D15, log 29): an interleaving of ticks alone
is not fair to a running machine, nor one of steps alone to an idle one; so neither is a hang. -/
def Obligations.StarvedRunsAreUnfair : Prop :=
  ∀ s : State,
    (s.status = .running → ¬fairRun (fun _ => .tick) s ∧ ¬s.hangs (fun _ => .tick)) ∧
    (s.idle = true → ¬fairRun (fun _ => .step) s ∧ ¬s.hangs (fun _ => .step))
end

