-- ==== Sys2Proof/Laws/Memory.lean ====
section
/-! SUPPORT. The laws of memory: a read after a write, and the canonical form kept by every operation. -/

namespace Sys2Proof.Machine

variable (font : Vector Byte 80)

theorem Memory.get_filter_ne {a b : Nat} (h : b ≠ a) (m : Memory) :
    Memory.get font (m.filter fun c => c.1 != a) b = Memory.get font m b := by
  induction m with
  | nil => rfl
  | cons c rest ih =>
    obtain ⟨k, w⟩ := c
    by_cases hk : k = a
    · subst hk; simp [Memory.get, ih, h]
    · simp [hk, Memory.get, ih]

theorem Memory.get_filter_self (a : Nat) (m : Memory) :
    Memory.get font (m.filter fun c => c.1 != a) a = Memory.unlisted font a := by
  induction m with
  | nil => rfl
  | cons c rest ih =>
    obtain ⟨k, w⟩ := c
    by_cases hk : k = a
    · subst hk; simpa using ih
    · simp [hk, Memory.get, ih, Ne.symm hk]

theorem Memory.get_insertCell (a b : Nat) (v : Byte) (m : Memory) (h : ∀ c ∈ m, c.1 ≠ a) :
    Memory.get font (Memory.insertCell a v m) b = if b = a then v else Memory.get font m b := by
  induction m with
  | nil => by_cases hb : b = a <;> simp [Memory.insertCell, Memory.get, hb]
  | cons c rest ih =>
    obtain ⟨k, w⟩ := c
    have hk : k ≠ a := h (k, w) (by simp)
    have ih := ih fun c hc => h c (by simp [hc])
    by_cases hlt : a < k
    · by_cases hb : b = a <;> simp [Memory.insertCell, hlt, Memory.get, hb]
    · by_cases hb : b = a
      · subst hb; simp [Memory.insertCell, hlt, Memory.get, ih, Ne.symm hk]
      · simp [Memory.insertCell, hlt, Memory.get, ih, hb]

/-- A read after a write: the byte written there, every other byte as before (20_memory.md R72, R81). -/
theorem Memory.get_put (a b : Nat) (v : Byte) (m : Memory) :
    Memory.get font (Memory.put font a v m) b = if b = a then v else Memory.get font m b := by
  unfold Memory.put
  by_cases hv : v = Memory.unlisted font a
  · by_cases hb : b = a
    · subst hb; simp [hv, Memory.get_filter_self]
    · simp [hv, hb, Memory.get_filter_ne font hb]
  · have hne : ∀ c ∈ m.filter fun c => c.1 != a, c.1 ≠ a := by simp
    by_cases hb : b = a
    · subst hb; simp [hv, Memory.get_insertCell font b b v _ hne]
    · simp [hv, hb, Memory.get_insertCell font a b v _ hne, Memory.get_filter_ne font hb]

theorem Memory.mem_insertCell {a : Nat} {v : Byte} {m : Memory} {c : Host.Cell} :
    c ∈ Memory.insertCell a v m ↔ c = (a, v) ∨ c ∈ m := by
  induction m with
  | nil => simp [Memory.insertCell]
  | cons d rest ih =>
    obtain ⟨k, w⟩ := d
    unfold Memory.insertCell
    split
    · simp
    · simp only [List.mem_cons, ih]; tauto

theorem Memory.insertCell_rising {a : Nat} {v : Byte} {m : Memory} (hne : ∀ c ∈ m, c.1 ≠ a)
    (h : m.Pairwise fun c d => c.1 < d.1) : (Memory.insertCell a v m).Pairwise fun c d => c.1 < d.1 := by
  induction m with
  | nil => simp [Memory.insertCell]
  | cons d rest ih =>
    obtain ⟨k, w⟩ := d
    have hk : k ≠ a := hne (k, w) (by simp)
    have hp := List.pairwise_cons.mp h
    unfold Memory.insertCell
    split
    · next hlt =>
      refine List.pairwise_cons.mpr ⟨?_, h⟩
      intro c hc
      rcases List.mem_cons.mp hc with rfl | hc
      · exact hlt
      · exact Nat.lt_trans hlt (hp.1 c hc)
    · next hlt =>
      refine List.pairwise_cons.mpr ⟨?_, ih (fun c hc => hne c (by simp [hc])) hp.2⟩
      intro c hc
      rcases Memory.mem_insertCell.mp hc with rfl | hc
      · show k < a; omega
      · exact hp.1 c hc

/-- A write inside the address space keeps the canonical form. -/
theorem Memory.put_wf {a : Nat} (ha : a < 4096) (v : Byte) {m : Memory} (h : Memory.wf font m) :
    Memory.wf font (Memory.put font a v m) := by
  have hsub : ∀ c ∈ m.filter fun c => c.1 != a, c ∈ m := fun c hc => (List.mem_filter.mp hc).1
  have hp := h.1.filter fun c : Host.Cell => c.1 != a
  unfold Memory.put
  by_cases hv : v = Memory.unlisted font a
  · simp only [hv, if_true]
    exact ⟨hp, fun c hc => h.2 c (hsub c hc)⟩
  · simp only [hv, if_false]
    refine ⟨Memory.insertCell_rising (by simp) hp, ?_⟩
    intro c hc
    rcases Memory.mem_insertCell.mp hc with rfl | hc
    · exact ⟨ha, hv⟩
    · exact h.2 c (hsub c hc)

/-- Consecutive writes: the bytes written in their places, every other byte as before. -/
theorem Memory.get_putList (vs : List Byte) (a b : Nat) (m : Memory) :
    Memory.get font (Memory.putList font a vs m) b =
      if h : a ≤ b ∧ b < a + vs.length then vs[b - a]'(by omega) else Memory.get font m b := by
  induction vs generalizing a m with
  | nil =>
    have : ¬(a ≤ b ∧ b < a) := by omega
    simp [Memory.putList, this]
  | cons v vs ih =>
    simp only [Memory.putList, ih, Memory.get_put, List.length_cons]
    by_cases h1 : a + 1 ≤ b ∧ b < a + 1 + vs.length
    · have h2 : a ≤ b ∧ b < a + (vs.length + 1) := by omega
      obtain ⟨k, hk⟩ : ∃ k, b - a = k + 1 := ⟨b - a - 1, by omega⟩
      have hk' : b - (a + 1) = k := by omega
      simp [h1, h2, hk, hk']
    · by_cases hb : b = a
      · subst hb; simp
      · have h2 : ¬(a ≤ b ∧ b < a + (vs.length + 1)) := by omega
        rw [dif_neg h1, dif_neg h2, if_neg hb]

/-- Consecutive writes inside the address space keep the canonical form. -/
theorem Memory.putList_wf (vs : List Byte) {a : Nat} (ha : a + vs.length ≤ 4096) {m : Memory} (h : Memory.wf font m) :
    Memory.wf font (Memory.putList font a vs m) := by
  induction vs generalizing a m with
  | nil => exact h
  | cons v vs ih =>
    simp only [List.length_cons] at ha
    exact ih (by omega) (Memory.put_wf font (by omega) v h)

/-- The empty list is canonical: memory as `Init` leaves it. -/
theorem Memory.nil_wf : Memory.wf font [] := ⟨List.Pairwise.nil, by simp⟩

end Sys2Proof.Machine
end

