-- ==== Sys2Proof/Laws/State.lean ====
section
/-! SUPPORT. One lemma per field per update, so that no proof unfolds a record update; and the readers over the updates. -/

namespace Sys2Proof.Machine

variable (s : State)

/-! ## setV -/

@[simp] theorem setV_v (x : RegId) (b : Byte) : (s.setV x b).v = s.v.set x.toNat b x.isLt := rfl
@[simp] theorem setV_i (x : RegId) (b : Byte) : (s.setV x b).i = s.i := rfl
@[simp] theorem setV_pc (x : RegId) (b : Byte) : (s.setV x b).pc = s.pc := rfl
@[simp] theorem setV_stack (x : RegId) (b : Byte) : (s.setV x b).stack = s.stack := rfl
@[simp] theorem setV_dt (x : RegId) (b : Byte) : (s.setV x b).dt = s.dt := rfl
@[simp] theorem setV_st (x : RegId) (b : Byte) : (s.setV x b).st = s.st := rfl
@[simp] theorem setV_mem (x : RegId) (b : Byte) : (s.setV x b).mem = s.mem := rfl
@[simp] theorem setV_fb (x : RegId) (b : Byte) : (s.setV x b).fb = s.fb := rfl
@[simp] theorem setV_status (x : RegId) (b : Byte) : (s.setV x b).status = s.status := rfl
@[simp] theorem setV_params (x : RegId) (b : Byte) : (s.setV x b).params = s.params := rfl
@[simp] theorem setV_inputs (x : RegId) (b : Byte) : (s.setV x b).inputs = s.inputs := rfl
@[simp] theorem setV_outputs (x : RegId) (b : Byte) : (s.setV x b).outputs = s.outputs := rfl

/-! ## raiseFatal -/

@[simp] theorem raiseFatal_v (c : Cause) (f : FaultInfo) : (raiseFatal c f s).v = s.v := rfl
@[simp] theorem raiseFatal_i (c : Cause) (f : FaultInfo) : (raiseFatal c f s).i = s.i := rfl
@[simp] theorem raiseFatal_pc (c : Cause) (f : FaultInfo) : (raiseFatal c f s).pc = s.pc := rfl
@[simp] theorem raiseFatal_stack (c : Cause) (f : FaultInfo) : (raiseFatal c f s).stack = s.stack := rfl
@[simp] theorem raiseFatal_dt (c : Cause) (f : FaultInfo) : (raiseFatal c f s).dt = s.dt := rfl
@[simp] theorem raiseFatal_st (c : Cause) (f : FaultInfo) : (raiseFatal c f s).st = s.st := rfl
@[simp] theorem raiseFatal_mem (c : Cause) (f : FaultInfo) : (raiseFatal c f s).mem = s.mem := rfl
@[simp] theorem raiseFatal_fb (c : Cause) (f : FaultInfo) : (raiseFatal c f s).fb = s.fb := rfl
@[simp] theorem raiseFatal_status (c : Cause) (f : FaultInfo) : (raiseFatal c f s).status = .faulted c s.pc f := rfl
@[simp] theorem raiseFatal_params (c : Cause) (f : FaultInfo) : (raiseFatal c f s).params = s.params := rfl
@[simp] theorem raiseFatal_inputs (c : Cause) (f : FaultInfo) : (raiseFatal c f s).inputs = s.inputs := rfl
@[simp] theorem raiseFatal_outputs (c : Cause) (f : FaultInfo) : (raiseFatal c f s).outputs = s.outputs ++ [.diagnostic c s.pc f] := rfl

/-! ## advance -/

@[simp] theorem advance_v : (advance s).v = s.v := rfl
@[simp] theorem advance_i : (advance s).i = s.i := rfl
@[simp] theorem advance_pc : (advance s).pc = s.pc + 2#16 := rfl
@[simp] theorem advance_stack : (advance s).stack = s.stack := rfl
@[simp] theorem advance_dt : (advance s).dt = s.dt := rfl
@[simp] theorem advance_st : (advance s).st = s.st := rfl
@[simp] theorem advance_mem : (advance s).mem = s.mem := rfl
@[simp] theorem advance_fb : (advance s).fb = s.fb := rfl
@[simp] theorem advance_status : (advance s).status = s.status := rfl
@[simp] theorem advance_params : (advance s).params = s.params := rfl
@[simp] theorem advance_inputs : (advance s).inputs = s.inputs := rfl
@[simp] theorem advance_outputs : (advance s).outputs = s.outputs := rfl

/-! ## jump -/

@[simp] theorem jump_v (target : Nat) : (jump target s).v = s.v := rfl
@[simp] theorem jump_i (target : Nat) : (jump target s).i = s.i := rfl
@[simp] theorem jump_pc (target : Nat) : (jump target s).pc = BitVec.ofNat 16 target - 2#16 := rfl
@[simp] theorem jump_stack (target : Nat) : (jump target s).stack = s.stack := rfl
@[simp] theorem jump_dt (target : Nat) : (jump target s).dt = s.dt := rfl
@[simp] theorem jump_st (target : Nat) : (jump target s).st = s.st := rfl
@[simp] theorem jump_mem (target : Nat) : (jump target s).mem = s.mem := rfl
@[simp] theorem jump_fb (target : Nat) : (jump target s).fb = s.fb := rfl
@[simp] theorem jump_status (target : Nat) : (jump target s).status = s.status := rfl
@[simp] theorem jump_params (target : Nat) : (jump target s).params = s.params := rfl
@[simp] theorem jump_inputs (target : Nat) : (jump target s).inputs = s.inputs := rfl
@[simp] theorem jump_outputs (target : Nat) : (jump target s).outputs = s.outputs := rfl

/-! ## skip -/

@[simp] theorem skip_v : (skip s).v = s.v := rfl
@[simp] theorem skip_i : (skip s).i = s.i := rfl
@[simp] theorem skip_pc : (skip s).pc = s.pc + 2#16 := rfl
@[simp] theorem skip_stack : (skip s).stack = s.stack := rfl
@[simp] theorem skip_dt : (skip s).dt = s.dt := rfl
@[simp] theorem skip_st : (skip s).st = s.st := rfl
@[simp] theorem skip_mem : (skip s).mem = s.mem := rfl
@[simp] theorem skip_fb : (skip s).fb = s.fb := rfl
@[simp] theorem skip_status : (skip s).status = s.status := rfl
@[simp] theorem skip_params : (skip s).params = s.params := rfl
@[simp] theorem skip_inputs : (skip s).inputs = s.inputs := rfl
@[simp] theorem skip_outputs : (skip s).outputs = s.outputs := rfl

/-! ## setByte -/

@[simp] theorem setByte_v (a : Nat) (b : Byte) : (s.setByte a b).v = s.v := rfl
@[simp] theorem setByte_i (a : Nat) (b : Byte) : (s.setByte a b).i = s.i := rfl
@[simp] theorem setByte_pc (a : Nat) (b : Byte) : (s.setByte a b).pc = s.pc := rfl
@[simp] theorem setByte_stack (a : Nat) (b : Byte) : (s.setByte a b).stack = s.stack := rfl
@[simp] theorem setByte_dt (a : Nat) (b : Byte) : (s.setByte a b).dt = s.dt := rfl
@[simp] theorem setByte_st (a : Nat) (b : Byte) : (s.setByte a b).st = s.st := rfl
@[simp] theorem setByte_mem (a : Nat) (b : Byte) : (s.setByte a b).mem = Memory.put s.params.font a b s.mem := rfl
@[simp] theorem setByte_fb (a : Nat) (b : Byte) : (s.setByte a b).fb = s.fb := rfl
@[simp] theorem setByte_status (a : Nat) (b : Byte) : (s.setByte a b).status = s.status := rfl
@[simp] theorem setByte_params (a : Nat) (b : Byte) : (s.setByte a b).params = s.params := rfl
@[simp] theorem setByte_inputs (a : Nat) (b : Byte) : (s.setByte a b).inputs = s.inputs := rfl
@[simp] theorem setByte_outputs (a : Nat) (b : Byte) : (s.setByte a b).outputs = s.outputs := rfl

/-! ## fbClear -/

@[simp] theorem fbClear_v : (fbClear s).v = s.v := rfl
@[simp] theorem fbClear_i : (fbClear s).i = s.i := rfl
@[simp] theorem fbClear_pc : (fbClear s).pc = s.pc := rfl
@[simp] theorem fbClear_stack : (fbClear s).stack = s.stack := rfl
@[simp] theorem fbClear_dt : (fbClear s).dt = s.dt := rfl
@[simp] theorem fbClear_st : (fbClear s).st = s.st := rfl
@[simp] theorem fbClear_mem : (fbClear s).mem = s.mem := rfl
@[simp] theorem fbClear_fb : (fbClear s).fb = Vector.replicate 32 0 := rfl
@[simp] theorem fbClear_status : (fbClear s).status = s.status := rfl
@[simp] theorem fbClear_params : (fbClear s).params = s.params := rfl
@[simp] theorem fbClear_inputs : (fbClear s).inputs = s.inputs := rfl
@[simp] theorem fbClear_outputs : (fbClear s).outputs = s.outputs := rfl

/-! ## gateFired -/

@[simp] theorem gateFired_v : (gateFired s).v = s.v := rfl
@[simp] theorem gateFired_i : (gateFired s).i = s.i := rfl
@[simp] theorem gateFired_pc : (gateFired s).pc = s.pc := rfl
@[simp] theorem gateFired_stack : (gateFired s).stack = s.stack := rfl
@[simp] theorem gateFired_dt : (gateFired s).dt = s.dt := rfl
@[simp] theorem gateFired_st : (gateFired s).st = s.st := rfl
@[simp] theorem gateFired_mem : (gateFired s).mem = s.mem := rfl
@[simp] theorem gateFired_fb : (gateFired s).fb = s.fb := rfl
@[simp] theorem gateFired_status : (gateFired s).status = s.status := rfl
@[simp] theorem gateFired_params : (gateFired s).params = s.params := rfl
@[simp] theorem gateFired_inputs : (gateFired s).inputs = s.inputs.dropActivity := rfl
@[simp] theorem gateFired_outputs : (gateFired s).outputs = s.outputs := rfl

/-! ## fbToggle -/

@[simp] theorem fbToggle_v (pos : Nat) : (fbToggle pos s).v = s.v := by unfold fbToggle; split <;> rfl
@[simp] theorem fbToggle_i (pos : Nat) : (fbToggle pos s).i = s.i := by unfold fbToggle; split <;> rfl
@[simp] theorem fbToggle_pc (pos : Nat) : (fbToggle pos s).pc = s.pc := by unfold fbToggle; split <;> rfl
@[simp] theorem fbToggle_stack (pos : Nat) : (fbToggle pos s).stack = s.stack := by unfold fbToggle; split <;> rfl
@[simp] theorem fbToggle_dt (pos : Nat) : (fbToggle pos s).dt = s.dt := by unfold fbToggle; split <;> rfl
@[simp] theorem fbToggle_st (pos : Nat) : (fbToggle pos s).st = s.st := by unfold fbToggle; split <;> rfl
@[simp] theorem fbToggle_mem (pos : Nat) : (fbToggle pos s).mem = s.mem := by unfold fbToggle; split <;> rfl
@[simp] theorem fbToggle_status (pos : Nat) : (fbToggle pos s).status = s.status := by unfold fbToggle; split <;> rfl
@[simp] theorem fbToggle_params (pos : Nat) : (fbToggle pos s).params = s.params := by unfold fbToggle; split <;> rfl
@[simp] theorem fbToggle_inputs (pos : Nat) : (fbToggle pos s).inputs = s.inputs := by unfold fbToggle; split <;> rfl
@[simp] theorem fbToggle_outputs (pos : Nat) : (fbToggle pos s).outputs = s.outputs := by unfold fbToggle; split <;> rfl

/-! ## skipIf -/

@[simp] theorem skipIf_v (c : Bool) : (skipIf c s).v = s.v := by cases c <;> rfl
@[simp] theorem skipIf_i (c : Bool) : (skipIf c s).i = s.i := by cases c <;> rfl
@[simp] theorem skipIf_pc (c : Bool) : (skipIf c s).pc = if c then s.pc + 2#16 else s.pc := by cases c <;> rfl
@[simp] theorem skipIf_stack (c : Bool) : (skipIf c s).stack = s.stack := by cases c <;> rfl
@[simp] theorem skipIf_dt (c : Bool) : (skipIf c s).dt = s.dt := by cases c <;> rfl
@[simp] theorem skipIf_st (c : Bool) : (skipIf c s).st = s.st := by cases c <;> rfl
@[simp] theorem skipIf_mem (c : Bool) : (skipIf c s).mem = s.mem := by cases c <;> rfl
@[simp] theorem skipIf_fb (c : Bool) : (skipIf c s).fb = s.fb := by cases c <;> rfl
@[simp] theorem skipIf_status (c : Bool) : (skipIf c s).status = s.status := by cases c <;> rfl
@[simp] theorem skipIf_params (c : Bool) : (skipIf c s).params = s.params := by cases c <;> rfl
@[simp] theorem skipIf_inputs (c : Bool) : (skipIf c s).inputs = s.inputs := by cases c <;> rfl
@[simp] theorem skipIf_outputs (c : Bool) : (skipIf c s).outputs = s.outputs := by cases c <;> rfl

/-! ## The register file -/

theorem getV_setV (x y : RegId) (b : Byte) : (s.setV x b).getV y = if y = x then b else s.getV y := by
  unfold State.getV State.setV
  by_cases h : y = x
  · subst h; simp
  · have : x.toNat ≠ y.toNat := fun e => h (BitVec.eq_of_toNat_eq e.symm)
    simp [h, Vector.getElem_set_ne, this]

@[simp] theorem getV_setV_same (x : RegId) (b : Byte) : (s.setV x b).getV x = b := by simp [getV_setV]

theorem getV_setV_other {x y : RegId} (h : y ≠ x) (b : Byte) : (s.setV x b).getV y = s.getV y := by simp [getV_setV, h]

/-- Two states with the same register file read the same. -/
theorem getV_congr {s t : State} (h : t.v = s.v) (x : RegId) : t.getV x = s.getV x := by simp [State.getV, h]

@[simp] theorem getV_raiseFatal (c : Cause) (f : FaultInfo) (x : RegId) : (raiseFatal c f s).getV x = s.getV x := rfl
@[simp] theorem getV_advance (x : RegId) : (advance s).getV x = s.getV x := rfl
@[simp] theorem getV_jump (target : Nat) (x : RegId) : (jump target s).getV x = s.getV x := rfl
@[simp] theorem getV_skipIf (c : Bool) (x : RegId) : (skipIf c s).getV x = s.getV x := by cases c <;> rfl
@[simp] theorem getV_setByte (a : Nat) (b : Byte) (x : RegId) : (s.setByte a b).getV x = s.getV x := rfl
@[simp] theorem getV_fbToggle (pos : Nat) (x : RegId) : (fbToggle pos s).getV x = s.getV x :=
  getV_congr (fbToggle_v s pos) x

/-- The result and its flag: the flag wins at VF (41_alu.md R152). -/
theorem getV_setResultFlag (x y : RegId) (r f : Byte) :
    (setResultFlag x r f s).getV y = if y = vf then f else if y = x then r else s.getV y := by
  simp [setResultFlag, getV_setV]

/-- A result and its flag change nothing but the register file. -/
theorem setResultFlag_frame (x : RegId) (r f : Byte) :
    setResultFlag x r f s = { s with v := (setResultFlag x r f s).v } := rfl

/-! ## Memory reads -/

/-- Two states with the same memory and font read the same. -/
theorem byteAt_congr {s t : State} (hm : t.mem = s.mem) (hp : t.params = s.params) (a : Nat) : t.byteAt a = s.byteAt a := by
  simp [State.byteAt, hm, hp]

@[simp] theorem byteAt_setV (x : RegId) (b : Byte) (a : Nat) : (s.setV x b).byteAt a = s.byteAt a := rfl
@[simp] theorem byteAt_raiseFatal (c : Cause) (f : FaultInfo) (a : Nat) : (raiseFatal c f s).byteAt a = s.byteAt a := rfl
@[simp] theorem byteAt_advance (a : Nat) : (advance s).byteAt a = s.byteAt a := rfl
@[simp] theorem byteAt_fbToggle (pos a : Nat) : (fbToggle pos s).byteAt a = s.byteAt a :=
  byteAt_congr (fbToggle_mem s pos) (fbToggle_params s pos) a
@[simp] theorem byteAt_gateFired (a : Nat) : (gateFired s).byteAt a = s.byteAt a := rfl

/-! ## Pixels -/

@[simp] theorem pixel_setV (x : RegId) (b : Byte) (pos : Nat) : (s.setV x b).pixel pos = s.pixel pos := rfl
@[simp] theorem pixel_advance (pos : Nat) : (advance s).pixel pos = s.pixel pos := rfl
@[simp] theorem pixel_raiseFatal (c : Cause) (f : FaultInfo) (pos : Nat) : (raiseFatal c f s).pixel pos = s.pixel pos := rfl

@[simp] theorem pixel_fbClear (pos : Nat) : (fbClear s).pixel pos = false := by
  simp [State.pixel]

/-- Two states with the same framebuffer show the same pixels. -/
theorem pixel_congr {s t : State} (h : t.fb = s.fb) (pos : Nat) : t.pixel pos = s.pixel pos := by simp [State.pixel, h]

/-- A toggle flips its own pixel and no other (43_display.md R190). -/
theorem pixel_fbToggle {p : Nat} (hp : p < 2048) (q : Nat) :
    (fbToggle p s).pixel q = (s.pixel q ^^ (p == q)) := by
  have hr : p / 64 < 32 := by omega
  by_cases hq : q / 64 < 32
  · by_cases hrow : p / 64 = q / 64
    · have hmod : q % 64 < 64 := Nat.mod_lt _ (by omega)
      have key : (p % 64 == q % 64) = (p == q) := by
        by_cases hpq : p = q
        · simp [hpq]
        · simp [hpq, show p % 64 ≠ q % 64 by omega]
      simp [State.pixel, fbToggle, hrow, hq, hmod, ← key, Bool.beq_eq_decide_eq, eq_comm]
    · have hpq : (p == q) = false := by simpa using fun e : p = q => hrow (by rw [e])
      simp [State.pixel, fbToggle, hr, hq, Vector.getElem_set_ne, hrow, hpq]
  · have hpq : (p == q) = false := by simp; omega
    simp [State.pixel, hq, hpq]

/-- The framebuffer is its 2048 pixels. -/
theorem fb_ext {s t : State} (h : ∀ pos, pos < 2048 → t.pixel pos = s.pixel pos) : t.fb = s.fb := by
  apply Vector.ext
  intro r hr
  apply BitVec.eq_of_getLsbD_eq
  intro c hc
  have := h (c + 64 * r) (by omega)
  have e1 : (c + 64 * r) / 64 = r := by omega
  have e2 : (c + 64 * r) % 64 = c := by omega
  simpa [State.pixel, e1, e2, hr] using this

/-! ## The end of a meaning -/

@[simp] theorem andThen_ok {α : Type} (a : α) (k : α → Result) : andThen (.ok a) k = k a := rfl
@[simp] theorem andThen_error {α : Type} (e : State) (k : α → Result) : andThen (.error e) k = .next e := rfl

end Sys2Proof.Machine
end

