-- ==== Sys2Proof/Laws/Ops.lean ====
section
/-! SUPPORT. One lemma per shared operation that says everything it can do; the proofs cite these and unfold no operation. -/

namespace Sys2Proof.Machine

/-! ## One byte of memory -/

theorem byteAt_setByte (s : State) (a b : Nat) (v : Byte) : (s.setByte a v).byteAt b = if b = a then v else s.byteAt b :=
  Memory.get_put s.params.font a b v s.mem

theorem memRead_ok {a : Nat} (h : a < 4096) (s : State) : memRead a s = .ok (s.byteAt a) := by
  simp [memRead, Nat.not_le.mpr h]

theorem memRead_fault {a : Nat} (h : 4096 ≤ a) (s : State) : memRead a s = .error (raiseFatal .readRange (.addr a) s) := by
  simp [memRead, h]

theorem memWrite_ok {a : Nat} (h : a < 4096) (v : Byte) (s : State) : memWrite a v s = .ok (s.setByte a v) := by
  simp [memWrite, Nat.not_le.mpr h]

theorem memWrite_fault {a : Nat} (h : 4096 ≤ a) (v : Byte) (s : State) :
    memWrite a v s = .error (raiseFatal .writeRange (.addr a) s) := by
  simp [memWrite, h]

theorem fetch_ok {s : State} (h : s.pc.toNat + 1 < 4096) :
    fetch s = .ok (joinBytes (s.byteAt s.pc.toNat) (s.byteAt (s.pc.toNat + 1))) := by
  simp [fetch, Nat.not_le.mpr h, joinBytes]

theorem fetch_fault {s : State} (h : 4096 ≤ s.pc.toNat + 1) : fetch s = .error (raiseFatal .fetchRange .pcOnly s) := by
  simp [fetch, h]

/-! ## The stack -/

theorem push_ok {s : State} (h : s.stack.length < 16) (w : Word) : push w s = .ok { s with stack := s.stack ++ [w] } := by
  simp [push, Nat.not_le.mpr h]

theorem push_fault {s : State} (h : 16 ≤ s.stack.length) (w : Word) :
    push w s = .error (raiseFatal .stackOverflow .pcOnly s) := by
  simp [push, h]

theorem pop_ok {s : State} {rest : List Word} {w : Word} (h : s.stack = rest ++ [w]) :
    pop s = .ok (w, { s with stack := rest }) := by
  simp [pop, h]

theorem pop_fault {s : State} (h : s.stack = []) : pop s = .error (raiseFatal .stackUnderflow .pcOnly s) := by
  simp [pop, h]

/-- Everything `push` can do. -/
theorem push_cases (w : Word) (s : State) :
    (s.stack.length < 16 ∧ push w s = .ok { s with stack := s.stack ++ [w] }) ∨
      (16 ≤ s.stack.length ∧ push w s = .error (raiseFatal .stackOverflow .pcOnly s)) := by
  rcases Nat.lt_or_ge s.stack.length 16 with h | h
  · exact .inl ⟨h, push_ok h w⟩
  · exact .inr ⟨h, push_fault h w⟩

/-- Everything `pop` can do. -/
theorem pop_cases (s : State) :
    (∃ rest w, s.stack = rest ++ [w] ∧ pop s = .ok (w, { s with stack := rest })) ∨
      (s.stack = [] ∧ pop s = .error (raiseFatal .stackUnderflow .pcOnly s)) := by
  rcases List.eq_nil_or_concat s.stack with h | ⟨rest, w, h⟩
  · exact .inr ⟨h, pop_fault h⟩
  · exact .inl ⟨rest, w, by simpa using h, pop_ok (by simpa using h)⟩

/-! ## The key check -/

theorem keyCheck_ok {k : Byte} (h : k.toNat ≤ 15) (s : State) : keyCheck k s = .ok s := by
  simp [keyCheck, Nat.not_lt.mpr h]

theorem keyCheck_fault {k : Byte} (h : 15 < k.toNat) (s : State) :
    keyCheck k s = .error (raiseFatal .keyRange (.key k) s) := by
  simp [keyCheck, h]

/-! ## Consecutive stores -/

/-- A store that fits: exactly the bytes of the list, in their places. -/
theorem storeBytes_ok (vs : List Byte) {a : Nat} (s : State) (h : a + vs.length ≤ 4096) :
    storeBytes a vs s = .ok { s with mem := Memory.putList s.params.font a vs s.mem } := by
  induction vs generalizing a s with
  | nil => rfl
  | cons v vs ih =>
    simp only [List.length_cons] at h
    simp only [storeBytes, memWrite_ok (show a < 4096 by omega), Memory.putList]
    exact ih _ (by omega)

/-- A store that does not fit: the bytes below 4096 are written, then the first address out of range faults (60_exceptions.md R222). -/
theorem storeBytes_fault (vs : List Byte) {a : Nat} (s : State) (hv : vs ≠ []) (h : 4096 < a + vs.length) :
    storeBytes a vs s = .error (raiseFatal .writeRange (.addr (max a 4096))
      { s with mem := Memory.putList s.params.font a (vs.take (4096 - a)) s.mem }) := by
  induction vs generalizing a s with
  | nil => exact absurd rfl hv
  | cons v vs ih =>
    simp only [List.length_cons] at h
    rcases Nat.lt_or_ge a 4096 with ha | ha
    · simp only [storeBytes, memWrite_ok ha]
      have hvs : vs ≠ [] := by rintro rfl; simp at h; omega
      rw [ih _ hvs (by omega)]
      obtain ⟨k, hk⟩ : ∃ k, 4096 - a = k + 1 := ⟨4095 - a, by omega⟩
      have hk' : 4096 - (a + 1) = k := by omega
      have hm : max (a + 1) 4096 = max a 4096 := by omega
      simp [hk, hk', hm, Memory.putList, State.setByte]
    · have hm : max a 4096 = a := by omega
      have hz : 4096 - a = 0 := by omega
      simp [storeBytes, memWrite_fault ha, hm, hz, Memory.putList]

/-- Everything `storeBytes` can do, as far as a whole-machine rule asks: only memory moves, only inside the bytes' places and
below 4096; and where it does not go on, it ended in the write fault of an address of 4096 or more. -/
theorem storeBytes_cases (vs : List Byte) (a : Nat) (s : State) :
    ∃ m : Memory, (∀ b, Memory.get s.params.font m b ≠ s.byteAt b → a ≤ b ∧ b < a + vs.length ∧ b < 4096) ∧
      (Memory.wf s.params.font s.mem → Memory.wf s.params.font m) ∧
      (storeBytes a vs s = .ok { s with mem := m } ∨
        ∃ b, 4096 ≤ b ∧ storeBytes a vs s = .error (raiseFatal .writeRange (.addr b) { s with mem := m })) := by
  rcases Nat.lt_or_ge 4096 (a + vs.length) with h | h
  · by_cases hv : vs = []
    · subst hv
      exact ⟨s.mem, fun b hb => absurd rfl hb, id, .inl rfl⟩
    · refine ⟨Memory.putList s.params.font a (vs.take (4096 - a)) s.mem, fun b hb => ?_, fun hw => ?_,
        .inr ⟨max a 4096, by omega, storeBytes_fault vs s hv h⟩⟩
      · rw [Memory.get_putList] at hb
        split at hb
        · next hr => simp only [List.length_take] at hr; omega
        · exact absurd rfl hb
      · by_cases ha : a ≤ 4096
        · exact Memory.putList_wf _ _ (by simp only [List.length_take]; omega) hw
        · have hz : 4096 - a = 0 := by omega
          simpa [hz, Memory.putList] using hw
  · refine ⟨Memory.putList s.params.font a vs s.mem, fun b hb => ?_, Memory.putList_wf _ vs h, .inl (storeBytes_ok vs s h)⟩
    rw [Memory.get_putList] at hb
    split at hb
    · next hr => omega
    · exact absurd rfl hb

/-! ## Consecutive loads -/

/-- Everything `loadRegs` can do when its registers are in range: a load that fits fills exactly its registers. -/
theorem loadRegs_ok (base count r : Nat) (s : State) (hr : r + count ≤ 16) (h : base + r + count ≤ 4096) :
    ∃ t, loadRegs base count r s = .ok t ∧ t = { s with v := t.v } ∧
      ∀ x : RegId, t.getV x = if r ≤ x.toNat ∧ x.toNat < r + count then s.byteAt (base + x.toNat) else s.getV x := by
  induction count generalizing r s with
  | zero => exact ⟨s, rfl, rfl, fun x => by rw [if_neg (by omega)]⟩
  | succ count ih =>
    obtain ⟨t, ht, hf, hv⟩ := ih (r + 1) (s.setV (BitVec.ofNat 4 r) (s.byteAt (base + r))) (by omega) (by omega)
    refine ⟨t, ?_, by rw [hf]; rfl, fun x => ?_⟩
    · simpa only [loadRegs, memRead_ok (show base + r < 4096 by omega)] using ht
    · rw [hv x]
      have hx : (x = BitVec.ofNat 4 r) ↔ x.toNat = r := by
        constructor
        · rintro rfl; simp; omega
        · intro e; apply BitVec.eq_of_toNat_eq; simp; omega
      by_cases h1 : r + 1 ≤ x.toNat ∧ x.toNat < r + 1 + count
      · rw [if_pos h1, if_pos (by omega)]; rfl
      · rw [if_neg h1, getV_setV]
        by_cases h2 : x.toNat = r
        · rw [if_pos (hx.mpr h2), if_pos (by omega), h2]
        · rw [if_neg (fun e => h2 (hx.mp e)), if_neg (by omega)]

/-- A load that does not fit ends in the read fault of the first address out of range; only registers were loaded before it. -/
theorem loadRegs_fault (base count r : Nat) (s : State) (hc : 0 < count) (h : 4096 < base + r + count) :
    ∃ t : State, loadRegs base count r s = .error (raiseFatal .readRange (.addr (max (base + r) 4096)) t) ∧
      t = { s with v := t.v } := by
  induction count generalizing r s with
  | zero => omega
  | succ count ih =>
    rcases Nat.lt_or_ge (base + r) 4096 with ha | ha
    · obtain ⟨t, ht, hf⟩ := ih (r + 1) (s.setV (BitVec.ofNat 4 r) (s.byteAt (base + r))) (by omega) (by omega)
      refine ⟨t, ?_, by rw [hf]; rfl⟩
      have hm : max (base + (r + 1)) 4096 = max (base + r) 4096 := by omega
      simpa only [loadRegs, memRead_ok ha, hm] using ht
    · refine ⟨s, ?_, rfl⟩
      have hm : max (base + r) 4096 = base + r := by omega
      simp only [loadRegs, memRead_fault ha, hm]

/-- Everything `loadRegs` can do, as far as a whole-machine rule asks: only registers from `r` up move; and where it does not go
on, it ended in the read fault of an address of 4096 or more. -/
theorem loadRegs_cases (base count r : Nat) (s : State) (hr : r + count ≤ 16) :
    ∃ t : State, t = { s with v := t.v } ∧
      (∀ x : RegId, ¬(r ≤ x.toNat ∧ x.toNat < r + count) → t.getV x = s.getV x) ∧
      (loadRegs base count r s = .ok t ∨
        ∃ b, 4096 ≤ b ∧ loadRegs base count r s = .error (raiseFatal .readRange (.addr b) t)) := by
  induction count generalizing r s with
  | zero => exact ⟨s, rfl, fun x _ => rfl, .inl rfl⟩
  | succ count ih =>
    rcases Nat.lt_or_ge (base + r) 4096 with ha | ha
    · obtain ⟨t, hf, hv, ht⟩ := ih (r + 1) (s.setV (BitVec.ofNat 4 r) (s.byteAt (base + r))) (by omega)
      refine ⟨t, by rw [hf]; rfl, fun x hx => ?_, by simpa only [loadRegs, memRead_ok ha] using ht⟩
      rw [hv x (by omega), getV_setV_other]
      rintro rfl
      simp only [BitVec.toNat_ofNat] at hx
      omega
    · exact ⟨s, rfl, fun x _ => rfl, .inr ⟨base + r, ha, by simp only [loadRegs, memRead_fault ha]⟩⟩

end Sys2Proof.Machine
end

