-- ==== Sys2Proof/Laws/Display.lean ====
section
/-! SUPPORT. Everything a sprite draw does to the pixels and to VF (43_display.md R192). -/

namespace Sys2Proof.Machine

theorem pixelPosition_lt (cx cy : Byte) (row col : Nat) : pixelPosition cx cy row col < 2048 := by
  unfold pixelPosition; omega

/-- No two pixels of one sprite share a position (43_display.md R192: it is at most 8 wide and 15 tall). -/
theorem pixelPosition_inj {cx cy : Byte} {row row' col col' : Nat} (hr : row < 32) (hr' : row' < 32) (hc : col < 8)
    (hc' : col' < 8) (h : pixelPosition cx cy row col = pixelPosition cx cy row' col') : row = row' ∧ col = col' := by
  unfold pixelPosition at h; omega

/-- Does the row's byte put a set bit on the position? -/
def rowCovers (cx cy : Byte) (row : Nat) (b : Byte) (cols : List Nat) (q : Nat) : Bool :=
  cols.any fun col => spriteBit b col && pixelPosition cx cy row col == q

/-- Does the row's byte put a set bit on a pixel that is set? -/
def rowCollides (cx cy : Byte) (row : Nat) (b : Byte) (cols : List Nat) (s : State) : Bool :=
  cols.any fun col => spriteBit b col && s.pixel (pixelPosition cx cy row col)

/-! ## One column -/

theorem drawColumn_frame (cx cy : Byte) (row : Nat) (b : Byte) (s : State) (col : Nat) :
    drawColumn cx cy row b s col =
      { s with v := (drawColumn cx cy row b s col).v, fb := (drawColumn cx cy row b s col).fb } := by
  unfold drawColumn fbToggle
  by_cases h1 : spriteBit b col <;> by_cases h2 : s.pixel (pixelPosition cx cy row col) <;>
    by_cases h3 : pixelPosition cx cy row col / 64 < 32 <;> simp [h1, h2, h3, State.setV]

theorem drawColumn_pixel (cx cy : Byte) (row : Nat) (b : Byte) (s : State) (col q : Nat) :
    (drawColumn cx cy row b s col).pixel q = (s.pixel q ^^ (spriteBit b col && pixelPosition cx cy row col == q)) := by
  have hp := pixel_fbToggle s (pixelPosition_lt cx cy row col) q
  unfold drawColumn
  by_cases h1 : spriteBit b col <;> by_cases h2 : s.pixel (pixelPosition cx cy row col) <;> simp [h1, h2, hp]

theorem drawColumn_getV (cx cy : Byte) (row : Nat) (b : Byte) (s : State) (col : Nat) (x : RegId) :
    (drawColumn cx cy row b s col).getV x =
      if x = vf ∧ (spriteBit b col && s.pixel (pixelPosition cx cy row col)) then 1#8 else s.getV x := by
  unfold drawColumn
  by_cases h1 : spriteBit b col <;> by_cases h2 : s.pixel (pixelPosition cx cy row col) <;> simp [h1, h2, getV_setV]

/-! ## Some columns of one row -/

theorem drawColumns (cx cy : Byte) (row : Nat) (b : Byte) (cols : List Nat) (s : State)
    (hc : ∀ c ∈ cols, c < 8) (hn : cols.Nodup) (hr : row < 32) :
    ∃ t, cols.foldl (drawColumn cx cy row b) s = t ∧ t = { s with v := t.v, fb := t.fb } ∧
      (∀ q, t.pixel q = (s.pixel q ^^ rowCovers cx cy row b cols q)) ∧
      (∀ x, t.getV x = if x = vf ∧ rowCollides cx cy row b cols s then 1#8 else s.getV x) := by
  induction cols generalizing s with
  | nil => exact ⟨s, rfl, rfl, by simp [rowCovers], by simp [rowCollides]⟩
  | cons c cols ih =>
    have hn' := List.nodup_cons.mp hn
    obtain ⟨t, ht, hf, hp, hv⟩ := ih (drawColumn cx cy row b s c) (fun d hd => hc d (by simp [hd])) hn'.2
    have hdisj : ∀ d ∈ cols, pixelPosition cx cy row c ≠ pixelPosition cx cy row d := fun d hd e =>
      hn'.1 ((pixelPosition_inj hr hr (hc c (by simp)) (hc d (by simp [hd])) e).2 ▸ hd)
    refine ⟨t, ht, ?_, fun q => ?_, fun x => ?_⟩
    · rw [hf, drawColumn_frame cx cy row b s c]
    · rw [hp q, drawColumn_pixel]
      by_cases hq : spriteBit b c && pixelPosition cx cy row c == q
      · have hrest : rowCovers cx cy row b cols q = false := by
          have hcq : pixelPosition cx cy row c = q := by simp at hq; exact hq.2
          simp only [rowCovers, List.any_eq_false]
          intro d hd
          have := hdisj d hd
          rw [hcq] at this
          simp [Ne.symm this]
        simp only [rowCovers, List.any_cons] at hrest ⊢
        simp [hq, hrest]
      · simp only [rowCovers, List.any_cons, Bool.not_eq_true] at hq ⊢
        simp [hq]
    · have hcoll : rowCollides cx cy row b cols (drawColumn cx cy row b s c) = rowCollides cx cy row b cols s := by
        apply Bool.eq_iff_iff.mpr
        simp only [rowCollides, List.any_eq_true]
        refine exists_congr fun d => and_congr_right fun hd => ?_
        have hno : (pixelPosition cx cy row c == pixelPosition cx cy row d) = false := by simpa using hdisj d hd
        rw [drawColumn_pixel, hno]; simp
      rw [hv x, hcoll, drawColumn_getV]
      simp only [rowCollides, List.any_cons]
      by_cases hx : x = vf
      · by_cases h1 : (spriteBit b c && s.pixel (pixelPosition cx cy row c)) = true
        · simp [hx, h1]
        · simp only [Bool.not_eq_true] at h1
          simp [h1]
      · simp [hx]

/-! ## Whole rows -/

/-- Do the rows put a set bit on the position? -/
def rowsCover (s : State) (cx cy : Byte) (base : Nat) (rows : List Nat) (q : Nat) : Bool :=
  rows.any fun row => rowCovers cx cy row (s.byteAt (base + row)) (List.range 8) q

/-- Do the rows put a set bit on a pixel that is set? -/
def rowsCollide (s : State) (cx cy : Byte) (base : Nat) (rows : List Nat) : Bool :=
  rows.any fun row => rowCollides cx cy row (s.byteAt (base + row)) (List.range 8) s

/-- A row of a sprite covers no pixel of another of its rows. -/
theorem rowCovers_other_row {cx cy : Byte} {row d c : Nat} (hr : row < 32) (hd : d < 32) (hne : row ≠ d) (hc : c < 8)
    (b : Byte) : rowCovers cx cy row b (List.range 8) (pixelPosition cx cy d c) = false := by
  simp only [rowCovers, List.any_eq_false, List.mem_range, Bool.and_eq_true, beq_iff_eq, not_and]
  intro c' hc' _ e
  exact hne (pixelPosition_inj hr hd hc' hc e).1

/-- The later rows cover no pixel of the row. -/
theorem rowsCover_later {s : State} {cx cy : Byte} {base row count q : Nat} (hr : row + (count + 1) ≤ 32) {b : Byte}
    (hq : rowCovers cx cy row b (List.range 8) q = true) :
    rowsCover s cx cy base (List.range' (row + 1) count) q = false := by
  simp only [rowCovers, List.any_eq_true, List.mem_range, Bool.and_eq_true, beq_iff_eq] at hq
  obtain ⟨c, hc, -, rfl⟩ := hq
  simp only [rowsCover, List.any_eq_false]
  intro d hd
  have hd' := List.mem_range'_1.mp hd
  rw [rowCovers_other_row (by omega) (by omega) (by omega) hc]
  simp

/-- Drawing a row does not change what the later rows collide with. -/
theorem rowsCollide_later {s u : State} {cx cy : Byte} {base row count : Nat} (hr : row + (count + 1) ≤ 32) {b : Byte}
    (hb : ∀ a, u.byteAt a = s.byteAt a)
    (hp : ∀ q, u.pixel q = (s.pixel q ^^ rowCovers cx cy row b (List.range 8) q)) :
    rowsCollide u cx cy base (List.range' (row + 1) count) = rowsCollide s cx cy base (List.range' (row + 1) count) := by
  apply Bool.eq_iff_iff.mpr
  simp only [rowsCollide, List.any_eq_true, rowCollides, List.mem_range]
  refine exists_congr fun d => and_congr_right fun hd => exists_congr fun c => and_congr_right fun hc => ?_
  have hd' := List.mem_range'_1.mp hd
  rw [hb, hp, rowCovers_other_row (by omega) (by omega) (by omega) hc]
  simp

/-- A draw that fits in memory: every pixel under a set bit is flipped, VF is raised on a collision, nothing else moves. -/
theorem drawRows_ok (cx cy : Byte) (base count row : Nat) (s : State) (hr : row + count ≤ 32)
    (h : count = 0 ∨ base + row + count ≤ 4096) :
    ∃ t, drawRows cx cy base count row s = .ok t ∧ t = { s with v := t.v, fb := t.fb } ∧
      (∀ q, t.pixel q = (s.pixel q ^^ rowsCover s cx cy base (List.range' row count) q)) ∧
      (∀ x, t.getV x = if x = vf ∧ rowsCollide s cx cy base (List.range' row count) then 1#8 else s.getV x) := by
  induction count generalizing row s with
  | zero => exact ⟨s, rfl, rfl, by simp [rowsCover], by simp [rowsCollide]⟩
  | succ count ih =>
    have hlt : base + row < 4096 := by omega
    obtain ⟨u, hu, huf, hup, huv⟩ := drawColumns cx cy row (s.byteAt (base + row)) (List.range 8) s
      (by simp) List.nodup_range (by omega)
    have hub : ∀ a, u.byteAt a = s.byteAt a := fun a => by rw [huf]; rfl
    obtain ⟨t, ht, hf, hp, hv⟩ := ih (row + 1) u (by omega) (by omega)
    have hcov : ∀ q, rowsCover u cx cy base (List.range' (row + 1) count) q =
        rowsCover s cx cy base (List.range' (row + 1) count) q := fun q => by simp only [rowsCover, hub]
    refine ⟨t, ?_, by rw [hf, huf], fun q => ?_, fun x => ?_⟩
    · simp only [drawRows, memRead_ok hlt, drawRow, hu]; exact ht
    · have hsplit : rowsCover s cx cy base (List.range' row (count + 1)) q =
          (rowCovers cx cy row (s.byteAt (base + row)) (List.range 8) q ||
            rowsCover s cx cy base (List.range' (row + 1) count) q) := by
        rw [List.range'_succ]; rfl
      rw [hp q, hup q, hcov, hsplit]
      by_cases hq : rowCovers cx cy row (s.byteAt (base + row)) (List.range 8) q = true
      · rw [hq, rowsCover_later hr hq]; simp
      · rw [Bool.not_eq_true] at hq
        rw [hq]; simp
    · have hsplit : rowsCollide s cx cy base (List.range' row (count + 1)) =
          (rowCollides cx cy row (s.byteAt (base + row)) (List.range 8) s ||
            rowsCollide s cx cy base (List.range' (row + 1) count)) := by
        rw [List.range'_succ]; rfl
      rw [hv x, rowsCollide_later hr hub hup, huv x, hsplit]
      by_cases hx : x = vf
      · by_cases h1 : rowCollides cx cy row (s.byteAt (base + row)) (List.range 8) s = true
        · rw [h1]; simp [hx]
        · rw [Bool.not_eq_true] at h1
          rw [h1]; simp
      · simp [hx]

/-- A draw that does not fit ends in the read fault of the first address out of range; only VF and pixels moved before it. -/
theorem drawRows_fault (cx cy : Byte) (base count row : Nat) (s : State) (hr : row + count ≤ 32) (hc : 0 < count)
    (h : 4096 < base + row + count) :
    ∃ t : State, drawRows cx cy base count row s = .error (raiseFatal .readRange (.addr (max (base + row) 4096)) t) ∧
      t = { s with v := t.v, fb := t.fb } := by
  induction count generalizing row s with
  | zero => omega
  | succ count ih =>
    rcases Nat.lt_or_ge (base + row) 4096 with ha | ha
    · obtain ⟨u, hu, huf, -, -⟩ := drawColumns cx cy row (s.byteAt (base + row)) (List.range 8) s
        (by simp) List.nodup_range (by omega)
      obtain ⟨t, ht, hf⟩ := ih (row + 1) u (by omega) (by omega) (by omega)
      refine ⟨t, ?_, by rw [hf, huf]⟩
      have hm : max (base + (row + 1)) 4096 = max (base + row) 4096 := by omega
      simp only [drawRows, memRead_ok ha, drawRow, hu]
      rw [ht, hm]
    · refine ⟨s, ?_, rfl⟩
      have hm : max (base + row) 4096 = base + row := by omega
      simp only [drawRows, memRead_fault ha, hm]

/-- Everything `drawRows` can do, as far as a whole-machine rule asks: only VF and pixels move; and where it does not go on, it
ended in the read fault of an address of 4096 or more. -/
theorem drawRows_cases (cx cy : Byte) (base count row : Nat) (s : State) (hr : row + count ≤ 32) :
    ∃ t : State, t = { s with v := t.v, fb := t.fb } ∧ (∀ x, x ≠ vf → t.getV x = s.getV x) ∧
      (drawRows cx cy base count row s = .ok t ∨
        ∃ b, 4096 ≤ b ∧ drawRows cx cy base count row s = .error (raiseFatal .readRange (.addr b) t)) := by
  induction count generalizing row s with
  | zero => exact ⟨s, rfl, fun _ _ => rfl, .inl rfl⟩
  | succ count ih =>
    rcases Nat.lt_or_ge (base + row) 4096 with ha | ha
    · obtain ⟨u, hu, huf, -, huv⟩ := drawColumns cx cy row (s.byteAt (base + row)) (List.range 8) s
        (by simp) List.nodup_range (by omega)
      obtain ⟨t, hf, hv, ht⟩ := ih (row + 1) u (by omega)
      refine ⟨t, by rw [hf, huf], fun x hx => ?_, ?_⟩
      · rw [hv x hx, huv x]; simp [hx]
      · simpa only [drawRows, memRead_ok ha, drawRow, hu] using ht
    · exact ⟨s, rfl, fun _ _ => rfl, .inr ⟨base + row, ha, by simp only [drawRows, memRead_fault ha]⟩⟩

/-- The sprite's cover as the statements write it. -/
theorem rowsCover_eq_spriteCovers (s : State) (cx cy : Byte) (base n q : Nat) :
    rowsCover s cx cy base (List.range' 0 n) q = spriteCovers s cx cy base n q := by
  rw [← List.range_eq_range']; rfl

end Sys2Proof.Machine
end

