-- ==== Sys2Proof/Laws/PerInstr.lean ====
section
/-! SUPPORT. Per instruction: the encoder's word matches the instruction's own row of the opcode map (30_encoding.md R113). -/

namespace Sys2Proof.Laws.RowMatch

/-- A well-formed instruction's word matches its own row of the opcode map. -/
def Statement (i : Instr) : Prop :=
  i.wf = true → ∃ r ∈ opcodeMap, r.mnemonic = i.mnemonic ∧ r.matches (encode i) = true

theorem mask_wordAddr (op : Nibble) (nnn : Addr12) : wordAddr op nnn &&& 0xF000#16 = wordAddr op 0#12 := by
  apply BitVec.eq_of_getLsbD_eq
  intro i hi
  simp only [wordAddr, BitVec.getLsbD_and, BitVec.getLsbD_append]
  interval_cases i <;> simp

theorem mask_wordXKK (op : Nibble) (x : RegId) (kk : Byte) : wordXKK op x kk &&& 0xF000#16 = wordXKK op 0#4 0#8 := by
  apply BitVec.eq_of_getLsbD_eq
  intro i hi
  simp only [wordXKK, BitVec.getLsbD_and, BitVec.getLsbD_append]
  interval_cases i <;> simp

theorem mask_wordXSub (op : Nibble) (x : RegId) (kk : Byte) : wordXKK op x kk &&& 0xF0FF#16 = wordXKK op 0#4 kk := by
  apply BitVec.eq_of_getLsbD_eq
  intro i hi
  simp only [wordXKK, BitVec.getLsbD_and, BitVec.getLsbD_append]
  interval_cases i <;> simp

theorem mask_wordXYN (op : Nibble) (x y : RegId) (n : Nibble) :
    wordXYN op x y n &&& 0xF000#16 = wordXYN op 0#4 0#4 0#4 := by
  apply BitVec.eq_of_getLsbD_eq
  intro i hi
  simp only [wordXYN, BitVec.getLsbD_and, BitVec.getLsbD_append]
  interval_cases i <;> simp

theorem mask_wordXYSub (op : Nibble) (x y : RegId) (n : Nibble) :
    wordXYN op x y n &&& 0xF00F#16 = wordXYN op 0#4 0#4 n := by
  apply BitVec.eq_of_getLsbD_eq
  intro i hi
  simp only [wordXYN, BitVec.getLsbD_and, BitVec.getLsbD_append]
  interval_cases i <;> simp

theorem cls : Statement (.cls) := fun _ =>
  ⟨⟨"CLS", 0x00E0#16, 0xFFFF#16, 0⟩, by decide, rfl, by decide⟩

theorem ret : Statement (.ret) := fun _ =>
  ⟨⟨"RET", 0x00EE#16, 0xFFFF#16, 0⟩, by decide, rfl, by decide⟩

theorem jp (nnn : Addr12) : Statement (.jp nnn) := fun _ =>
  ⟨⟨"JP", 0x1000#16, 0xF000#16, 0⟩, by decide, rfl, by simp only [OpcodeRow.matches, encode, mask_wordAddr]; decide⟩

theorem call (nnn : Addr12) : Statement (.call nnn) := fun _ =>
  ⟨⟨"CALL", 0x2000#16, 0xF000#16, 0⟩, by decide, rfl, by simp only [OpcodeRow.matches, encode, mask_wordAddr]; decide⟩

theorem seImm (x : RegId) (kk : Byte) : Statement (.seImm x kk) := fun _ =>
  ⟨⟨"SE_imm", 0x3000#16, 0xF000#16, 0⟩, by decide, rfl, by simp only [OpcodeRow.matches, encode, mask_wordXKK]; decide⟩

theorem sneImm (x : RegId) (kk : Byte) : Statement (.sneImm x kk) := fun _ =>
  ⟨⟨"SNE_imm", 0x4000#16, 0xF000#16, 0⟩, by decide, rfl, by simp only [OpcodeRow.matches, encode, mask_wordXKK]; decide⟩

theorem seReg (x y : RegId) (n : Nibble) : Statement (.seReg x y n) := fun _ =>
  ⟨⟨"SE_reg", 0x5000#16, 0xF000#16, 0⟩, by decide, rfl, by simp only [OpcodeRow.matches, encode, mask_wordXYN]; decide⟩

theorem sneReg (x y : RegId) (n : Nibble) : Statement (.sneReg x y n) := fun _ =>
  ⟨⟨"SNE_reg", 0x9000#16, 0xF000#16, 0⟩, by decide, rfl, by simp only [OpcodeRow.matches, encode, mask_wordXYN]; decide⟩

theorem ldImm (x : RegId) (kk : Byte) : Statement (.ldImm x kk) := fun _ =>
  ⟨⟨"LD_imm", 0x6000#16, 0xF000#16, 0⟩, by decide, rfl, by simp only [OpcodeRow.matches, encode, mask_wordXKK]; decide⟩

theorem addImm (x : RegId) (kk : Byte) : Statement (.addImm x kk) := fun _ =>
  ⟨⟨"ADD_imm", 0x7000#16, 0xF000#16, 0⟩, by decide, rfl, by simp only [OpcodeRow.matches, encode, mask_wordXKK]; decide⟩

theorem ldReg (x y : RegId) : Statement (.ldReg x y) := fun _ =>
  ⟨⟨"LD_reg", 0x8000#16, 0xF00F#16, 0⟩, by decide, rfl, by simp only [OpcodeRow.matches, encode, mask_wordXYSub]; decide⟩

theorem or (x y : RegId) : Statement (.or x y) := fun _ =>
  ⟨⟨"OR", 0x8001#16, 0xF00F#16, 0⟩, by decide, rfl, by simp only [OpcodeRow.matches, encode, mask_wordXYSub]; decide⟩

theorem and (x y : RegId) : Statement (.and x y) := fun _ =>
  ⟨⟨"AND", 0x8002#16, 0xF00F#16, 0⟩, by decide, rfl, by simp only [OpcodeRow.matches, encode, mask_wordXYSub]; decide⟩

theorem xor (x y : RegId) : Statement (.xor x y) := fun _ =>
  ⟨⟨"XOR", 0x8003#16, 0xF00F#16, 0⟩, by decide, rfl, by simp only [OpcodeRow.matches, encode, mask_wordXYSub]; decide⟩

theorem addReg (x y : RegId) : Statement (.addReg x y) := fun _ =>
  ⟨⟨"ADD_reg", 0x8004#16, 0xF00F#16, 0⟩, by decide, rfl, by simp only [OpcodeRow.matches, encode, mask_wordXYSub]; decide⟩

theorem sub (x y : RegId) : Statement (.sub x y) := fun _ =>
  ⟨⟨"SUB", 0x8005#16, 0xF00F#16, 0⟩, by decide, rfl, by simp only [OpcodeRow.matches, encode, mask_wordXYSub]; decide⟩

theorem shr (x y : RegId) : Statement (.shr x y) := fun _ =>
  ⟨⟨"SHR", 0x8006#16, 0xF00F#16, 0⟩, by decide, rfl, by simp only [OpcodeRow.matches, encode, mask_wordXYSub]; decide⟩

theorem subn (x y : RegId) : Statement (.subn x y) := fun _ =>
  ⟨⟨"SUBN", 0x8007#16, 0xF00F#16, 0⟩, by decide, rfl, by simp only [OpcodeRow.matches, encode, mask_wordXYSub]; decide⟩

theorem shl (x y : RegId) : Statement (.shl x y) := fun _ =>
  ⟨⟨"SHL", 0x800E#16, 0xF00F#16, 0⟩, by decide, rfl, by simp only [OpcodeRow.matches, encode, mask_wordXYSub]; decide⟩

theorem ldI (nnn : Addr12) : Statement (.ldI nnn) := fun _ =>
  ⟨⟨"LD_I", 0xA000#16, 0xF000#16, 0⟩, by decide, rfl, by simp only [OpcodeRow.matches, encode, mask_wordAddr]; decide⟩

theorem jpV0 (nnn : Addr12) : Statement (.jpV0 nnn) := fun _ =>
  ⟨⟨"JP_V0", 0xB000#16, 0xF000#16, 0⟩, by decide, rfl, by simp only [OpcodeRow.matches, encode, mask_wordAddr]; decide⟩

theorem rnd (x : RegId) (kk : Byte) : Statement (.rnd x kk) := fun _ =>
  ⟨⟨"RND", 0xC000#16, 0xF000#16, 0⟩, by decide, rfl, by simp only [OpcodeRow.matches, encode, mask_wordXKK]; decide⟩

theorem drw (x y : RegId) (n : Nibble) : Statement (.drw x y n) := fun _ =>
  ⟨⟨"DRW", 0xD000#16, 0xF000#16, 0⟩, by decide, rfl, by simp only [OpcodeRow.matches, encode, mask_wordXYN]; decide⟩

theorem skp (x : RegId) : Statement (.skp x) := fun _ =>
  ⟨⟨"SKP", 0xE09E#16, 0xF0FF#16, 0⟩, by decide, rfl, by simp only [OpcodeRow.matches, encode, mask_wordXSub]; decide⟩

theorem sknp (x : RegId) : Statement (.sknp x) := fun _ =>
  ⟨⟨"SKNP", 0xE0A1#16, 0xF0FF#16, 0⟩, by decide, rfl, by simp only [OpcodeRow.matches, encode, mask_wordXSub]; decide⟩

theorem ldVxDt (x : RegId) : Statement (.ldVxDt x) := fun _ =>
  ⟨⟨"LD_Vx_DT", 0xF007#16, 0xF0FF#16, 0⟩, by decide, rfl, by simp only [OpcodeRow.matches, encode, mask_wordXSub]; decide⟩

theorem ldDtVx (x : RegId) : Statement (.ldDtVx x) := fun _ =>
  ⟨⟨"LD_DT_Vx", 0xF015#16, 0xF0FF#16, 0⟩, by decide, rfl, by simp only [OpcodeRow.matches, encode, mask_wordXSub]; decide⟩

theorem ldVxK (x : RegId) : Statement (.ldVxK x) := fun _ =>
  ⟨⟨"LD_Vx_K", 0xF00A#16, 0xF0FF#16, 0⟩, by decide, rfl, by simp only [OpcodeRow.matches, encode, mask_wordXSub]; decide⟩

theorem ldStVx (x : RegId) : Statement (.ldStVx x) := fun _ =>
  ⟨⟨"LD_ST_Vx", 0xF018#16, 0xF0FF#16, 0⟩, by decide, rfl, by simp only [OpcodeRow.matches, encode, mask_wordXSub]; decide⟩

theorem addI (x : RegId) : Statement (.addI x) := fun _ =>
  ⟨⟨"ADD_I", 0xF01E#16, 0xF0FF#16, 0⟩, by decide, rfl, by simp only [OpcodeRow.matches, encode, mask_wordXSub]; decide⟩

theorem ldF (x : RegId) : Statement (.ldF x) := fun _ =>
  ⟨⟨"LD_F", 0xF029#16, 0xF0FF#16, 0⟩, by decide, rfl, by simp only [OpcodeRow.matches, encode, mask_wordXSub]; decide⟩

theorem ldB (x : RegId) : Statement (.ldB x) := fun _ =>
  ⟨⟨"LD_B", 0xF033#16, 0xF0FF#16, 0⟩, by decide, rfl, by simp only [OpcodeRow.matches, encode, mask_wordXSub]; decide⟩

theorem ldStore (x : RegId) : Statement (.ldStore x) := fun _ =>
  ⟨⟨"LD_store", 0xF055#16, 0xF0FF#16, 0⟩, by decide, rfl, by simp only [OpcodeRow.matches, encode, mask_wordXSub]; decide⟩

theorem ldLoad (x : RegId) : Statement (.ldLoad x) := fun _ =>
  ⟨⟨"LD_load", 0xF065#16, 0xF0FF#16, 0⟩, by decide, rfl, by simp only [OpcodeRow.matches, encode, mask_wordXSub]; decide⟩

theorem sys (nnn : Addr12) : Statement (.sys nnn) := fun _ =>
  ⟨⟨"SYS", 0x0000#16, 0xF000#16, 1⟩, by decide, rfl, by simp only [OpcodeRow.matches, encode, mask_wordAddr]; decide⟩

theorem nop8 (x y : RegId) (n : Nibble) : Statement (.nop8 x y n) := fun _ =>
  ⟨⟨"NOP_8", 0x8000#16, 0xF000#16, 1⟩, by decide, rfl, by simp only [OpcodeRow.matches, encode, mask_wordXYN]; decide⟩

theorem nopE (x : RegId) (kk : Byte) : Statement (.nopE x kk) := fun _ =>
  ⟨⟨"NOP_E", 0xE000#16, 0xF000#16, 1⟩, by decide, rfl, by simp only [OpcodeRow.matches, encode, mask_wordXKK]; decide⟩

theorem nopF (x : RegId) (kk : Byte) : Statement (.nopF x kk) := fun _ =>
  ⟨⟨"NOP_F", 0xF000#16, 0xF000#16, 1⟩, by decide, rfl, by simp only [OpcodeRow.matches, encode, mask_wordXKK]; decide⟩

end Sys2Proof.Laws.RowMatch
end

