-- ==== Sys2Proof/Laws/Step.lean ====
section
/-! SUPPORT. Everything one step can do; the invariants are derived from it. -/

namespace Sys2Proof.Machine

/-- The gate's firing changes nothing but the schedule. -/
theorem gateFired_frame (s : State) : gateFired s = { s with inputs := s.inputs.dropActivity } := rfl

@[simp] theorem wordAtPc_gateFired (s : State) : (gateFired s).wordAtPc = s.wordAtPc := rfl

/-- An instruction step: the fetch fault, or the meaning of the word at the pc. -/
theorem instructionStep_eq (s : State) :
    instructionStep s =
      if s.pc.toNat + 1 < 4096 then exec (decodeWord s.wordAtPc) s else .next (raiseFatal .fetchRange .pcOnly s) := by
  by_cases h : s.pc.toNat + 1 < 4096
  · rw [if_pos h, instructionStep, fetch_ok h]; rfl
  · rw [if_neg h, instructionStep, fetch_fault (by omega)]; rfl

/-- Everything a step that answers a next state can have been (60_exceptions.md R232). -/
theorem step_cases {s t : State} (h : step s = .next t) :
    (s.status = .reset ∧ t = loadImage s) ∨
    (s.status = .running ∧ s.inputs.nextActivity = .tick ∧ t = tick (gateFired s)) ∨
    (s.status = .running ∧ s.inputs.nextActivity = .step ∧ ¬s.pc.toNat + 1 < 4096 ∧
      t = raiseFatal .fetchRange .pcOnly (gateFired s)) ∨
    (s.status = .running ∧ s.inputs.nextActivity = .step ∧ s.pc.toNat + 1 < 4096 ∧
      exec (decodeWord s.wordAtPc) (gateFired s) = .next t) ∨
    (∃ x, s.status = .waitKey x ∧ t = waitStep x s) := by
  unfold step at h
  split at h
  · next hs => cases h; exact .inl ⟨hs, rfl⟩
  · next hs =>
    split at h
    · next ha =>
      rw [instructionStep_eq, gateFired_pc] at h
      by_cases hp : s.pc.toNat + 1 < 4096
      · rw [if_pos hp] at h
        exact .inr (.inr (.inr (.inl ⟨hs, ha, hp, h⟩)))
      · rw [if_neg hp] at h
        cases h
        exact .inr (.inr (.inl ⟨hs, ha, hp, rfl⟩))
    · next ha => cases h; exact .inr (.inl ⟨hs, ha, rfl⟩)
  · next x hs => cases h; exact .inr (.inr (.inr (.inr ⟨x, hs, rfl⟩)))
  · cases h
  · cases h

/-! ## The transitions other than an instruction -/

/-- A tick changes the timers and the output and nothing else (60_exceptions.md R230). -/
theorem tick_frame (s : State) : tick s = { s with dt := (tick s).dt, st := (tick s).st, outputs := (tick s).outputs } := by
  have hd : tickDelay s = { s with dt := (tickDelay s).dt } := by unfold tickDelay; split <;> rfl
  have hs : tickSound (tickDelay s) = { tickDelay s with st := (tick s).st, outputs := (tick s).outputs } := by
    unfold tick tickSound; split <;> rfl
  have hdt : (tick s).dt = (tickDelay s).dt := by rw [tick, hs]
  rw [tick, hs, hd, ← hdt]

theorem tick_dt (s : State) : (tick s).dt = if s.dt = 0#8 then 0#8 else s.dt - 1#8 := by
  unfold tick tickSound tickDelay
  by_cases h1 : s.dt = 0#8 <;> by_cases h2 : s.st = 0#8 <;> simp [h1, h2]

theorem tick_st (s : State) : (tick s).st = if s.st = 0#8 then 0#8 else s.st - 1#8 := by
  unfold tick tickSound tickDelay
  by_cases h1 : s.dt = 0#8 <;> by_cases h2 : s.st = 0#8 <;> simp [h1, h2]

theorem tick_outputs (s : State) : (tick s).outputs = if s.st = 0#8 then s.outputs else s.outputs ++ [.tone] := by
  unfold tick tickSound tickDelay
  by_cases h1 : s.dt = 0#8 <;> by_cases h2 : s.st = 0#8 <;> simp [h1, h2]

/-- A load changes memory and status and nothing else (20_memory.md R87). -/
theorem loadImage_frame (s : State) : loadImage s = { s with mem := (loadImage s).mem, status := (loadImage s).status } := by
  unfold loadImage
  split
  · rfl
  · split <;> rfl

/-- Everything a load can do (20_memory.md R87). -/
theorem loadImage_cases (s : State) :
    (s.inputs.image = none ∧ loadImage s = { s with status := .loadFailed .missing }) ∨
    (∃ image, s.inputs.image = some image ∧ 3584 < image.length ∧ loadImage s = { s with status := .loadFailed .tooLarge }) ∨
    (∃ image, s.inputs.image = some image ∧ image.length ≤ 3584 ∧
      loadImage s = { s with mem := Memory.putList s.params.font 512 image s.mem, status := .running }) := by
  unfold loadImage
  rcases h : s.inputs.image with _ | image
  · exact .inl ⟨rfl, rfl⟩
  · rcases Nat.lt_or_ge 3584 image.length with hl | hl
    · exact .inr (.inl ⟨image, rfl, hl, by simp [hl]⟩)
    · exact .inr (.inr ⟨image, rfl, hl, by simp [Nat.not_lt.mpr hl]⟩)

/-- Everything one step of a key wait can do (44_timers_input.md R204). -/
theorem waitStep_cases (x : RegId) (s : State) :
    (s.inputs.nextKey = none ∧ waitStep x s = { s with inputs := s.inputs.dropKey }) ∨
    (∃ k, s.inputs.nextKey = some k ∧
      waitStep x s = { s with v := (s.setV x (k.setWidth 8)).v, pc := s.pc + 2#16, status := .running,
                              inputs := s.inputs.dropKey }) := by
  unfold waitStep
  rcases h : s.inputs.nextKey with _ | k
  · exact .inl ⟨rfl, rfl⟩
  · exact .inr ⟨k, rfl, rfl⟩

/-! ## Placing an instruction for the next step -/

/-- A placed word is what the next step runs, where the pc can fetch. -/
theorem step_withFetchWord {s : State} (h : s.pc.toNat + 1 < 4096) (w : Word) :
    step (s.withFetchWord 16 w.toNat) =
      exec (decodeWord w) { s.withFetchWord 16 w.toNat with inputs := s.inputs } := by
  have hw : BitVec.ofNat 16 (w.toNat % 2 ^ 16) = w := by
    apply BitVec.eq_of_toNat_eq; simp [w.isLt]
  have hpc : (s.withFetchWord 16 w.toNat).pc = s.pc := by simp [State.withFetchWord, h]
  have hword : (s.withFetchWord 16 w.toNat).wordAtPc = w := by
    have e1 : (s.withFetchWord 16 w.toNat).byteAt s.pc.toNat = highByte w := by
      have : (s.withFetchWord 16 w.toNat).byteAt s.pc.toNat =
          ((s.setByte s.pc.toNat (highByte w)).setByte (s.pc.toNat + 1) (lowByte w)).byteAt s.pc.toNat := by
        simp only [State.withFetchWord, h, if_true, hw]; rfl
      rw [this, byteAt_setByte, if_neg (by omega), byteAt_setByte, if_pos rfl]
    have e2 : (s.withFetchWord 16 w.toNat).byteAt (s.pc.toNat + 1) = lowByte w := by
      have : (s.withFetchWord 16 w.toNat).byteAt (s.pc.toNat + 1) =
          ((s.setByte s.pc.toNat (highByte w)).setByte (s.pc.toNat + 1) (lowByte w)).byteAt (s.pc.toNat + 1) := by
        simp only [State.withFetchWord, h, if_true, hw]; rfl
      rw [this, byteAt_setByte, if_pos rfl]
    rw [State.wordAtPc, hpc, e1, e2]
    exact joinBytes_bytes w
  have hgate : gateFired (s.withFetchWord 16 w.toNat) = { s.withFetchWord 16 w.toNat with inputs := s.inputs } := rfl
  have hstep : step (s.withFetchWord 16 w.toNat) = instructionStep (gateFired (s.withFetchWord 16 w.toNat)) := rfl
  rw [hstep, instructionStep_eq, gateFired_pc, hpc, if_pos h, wordAtPc_gateFired, hword, hgate]

end Sys2Proof.Machine
end

