-- ==== Sys2Proof/Laws/Runs.lean ====
section
/-! SUPPORT. What a run under a given interleaving does, transition by transition. -/

namespace Sys2Proof.Machine

variable (s : State) (a : Activity)

@[simp] theorem withGate_v : (s.withGate a).v = s.v := rfl
@[simp] theorem withGate_i : (s.withGate a).i = s.i := rfl
@[simp] theorem withGate_pc : (s.withGate a).pc = s.pc := rfl
@[simp] theorem withGate_stack : (s.withGate a).stack = s.stack := rfl
@[simp] theorem withGate_dt : (s.withGate a).dt = s.dt := rfl
@[simp] theorem withGate_st : (s.withGate a).st = s.st := rfl
@[simp] theorem withGate_mem : (s.withGate a).mem = s.mem := rfl
@[simp] theorem withGate_fb : (s.withGate a).fb = s.fb := rfl
@[simp] theorem withGate_status : (s.withGate a).status = s.status := rfl
@[simp] theorem withGate_params : (s.withGate a).params = s.params := rfl
@[simp] theorem withGate_outputs : (s.withGate a).outputs = s.outputs := rfl
@[simp] theorem withGate_nextActivity : (s.withGate a).inputs.nextActivity = a := rfl

/-- One transition more. -/
theorem runUnder_succ {choice : Nat → Activity} {n : Nat} {s t : State} (h : runUnder choice n s = .next t) :
    runUnder choice (n + 1) s = step (t.withGate (choice n)) := by
  simp [runUnder, h]

/-- Being idle depends on the status, the pc and the bytes of memory alone (70_reset_and_hazards.md R270). -/
theorem idle_congr {s t : State} (hs : t.status = s.status) (hp : t.pc = s.pc) (hm : t.mem = s.mem)
    (hf : t.params = s.params) : t.idle = s.idle := by
  have hb : ∀ a, t.byteAt a = s.byteAt a := byteAt_congr hm hf
  unfold State.idle fetch
  by_cases h : 4096 ≤ s.pc.toNat + 1 <;> simp [hs, hp, hb, h]

@[simp] theorem idle_withGate : (s.withGate a).idle = s.idle := idle_congr rfl rfl rfl rfl

/-- An idle machine is Running (70_reset_and_hazards.md R270, end 2). -/
theorem running_of_idle {s : State} (h : s.idle = true) : s.status = .running := by
  unfold State.idle at h
  simp only [Bool.and_eq_true, beq_iff_eq] at h
  exact h.1

/-- While Running, the slow gate chosen is a tick. -/
theorem step_withGate_tick {s : State} (h : s.status = .running) :
    step (s.withGate .tick) = .next (tick (gateFired (s.withGate .tick))) := by
  simp [step, h]

/-- While Running, the fast gate chosen is an instruction step. -/
theorem step_withGate_step {s : State} (h : s.status = .running) :
    step (s.withGate .step) = instructionStep (gateFired (s.withGate .step)) := by
  simp [step, h]

end Sys2Proof.Machine
end

