-- ==== Sys2Proof/Machine/Assembler.lean ====
section
/-! DEFINITION. The assembler spelling of an instruction (30_encoding.md R111, R113). It has no effect on any rule. -/

namespace Sys2Proof.Machine

/-- A hexadecimal literal of `digits` digits. -/
def hexLiteral (digits v : Nat) : String :=
  let ds := (Nat.toDigits 16 v).map Char.toUpper
  "0x" ++ String.ofList (List.replicate (digits - ds.length) '0' ++ ds)

/-- A register name, V0 to VF. -/
def regName (x : RegId) : String := "V" ++ String.ofList ((Nat.toDigits 16 x.toNat).map Char.toUpper)

/-- One operand after a mnemonic. -/
def asm1 (op a : String) : String := op ++ " " ++ a

/-- Two operands, destination first. -/
def asm2 (op a b : String) : String := op ++ " " ++ a ++ ", " ++ b

/-- The instruction as the opcode map spells it; the optional `Vy` of the shifts is written out. -/
def assembly : Instr → String
  | .cls => "CLS"
  | .ret => "RET"
  | .jp nnn => asm1 "JP" (hexLiteral 3 nnn.toNat)
  | .call nnn => asm1 "CALL" (hexLiteral 3 nnn.toNat)
  | .seImm x kk => asm2 "SE" (regName x) (hexLiteral 2 kk.toNat)
  | .sneImm x kk => asm2 "SNE" (regName x) (hexLiteral 2 kk.toNat)
  | .seReg x y _ => asm2 "SE" (regName x) (regName y)
  | .sneReg x y _ => asm2 "SNE" (regName x) (regName y)
  | .ldImm x kk => asm2 "LD" (regName x) (hexLiteral 2 kk.toNat)
  | .addImm x kk => asm2 "ADD" (regName x) (hexLiteral 2 kk.toNat)
  | .ldReg x y => asm2 "LD" (regName x) (regName y)
  | .or x y => asm2 "OR" (regName x) (regName y)
  | .and x y => asm2 "AND" (regName x) (regName y)
  | .xor x y => asm2 "XOR" (regName x) (regName y)
  | .addReg x y => asm2 "ADD" (regName x) (regName y)
  | .sub x y => asm2 "SUB" (regName x) (regName y)
  | .shr x y => asm2 "SHR" (regName x) (regName y)
  | .subn x y => asm2 "SUBN" (regName x) (regName y)
  | .shl x y => asm2 "SHL" (regName x) (regName y)
  | .ldI nnn => asm2 "LD" "I" (hexLiteral 3 nnn.toNat)
  | .jpV0 nnn => asm2 "JP" "V0" (hexLiteral 3 nnn.toNat)
  | .rnd x kk => asm2 "RND" (regName x) (hexLiteral 2 kk.toNat)
  | .drw x y n => asm2 "DRW" (regName x) (regName y) ++ ", " ++ hexLiteral 1 n.toNat
  | .skp x => asm1 "SKP" (regName x)
  | .sknp x => asm1 "SKNP" (regName x)
  | .ldVxDt x => asm2 "LD" (regName x) "DT"
  | .ldDtVx x => asm2 "LD" "DT" (regName x)
  | .ldVxK x => asm2 "LD" (regName x) "K"
  | .ldStVx x => asm2 "LD" "ST" (regName x)
  | .addI x => asm2 "ADD" "I" (regName x)
  | .ldF x => asm2 "LD" "F" (regName x)
  | .ldB x => asm2 "LD" "B" (regName x)
  | .ldStore x => asm2 "LD" "[I]" (regName x)
  | .ldLoad x => asm2 "LD" (regName x) "[I]"
  | .sys nnn => asm1 "SYS" (hexLiteral 3 nnn.toNat)
  | .nop8 _ _ _ | .nopE _ _ | .nopF _ _ => "(no-op)"

end Sys2Proof.Machine
end

