-- ==== Sys2Proof/Tests/Slice0.lean ====
section
/-! SUPPORT. The model's own tests: what WellFormed refuses, words written out from their encodings, the vectors of
95_test_vectors.md sections 1 and 2 (each named in its theorem's comment), and for every statement with hypotheses a
state that meets them. -/

namespace Sys2Proof.Tests
open Sys2Proof.Machine

/-! ## Helpers -/

/-- Does the step answer a next state with this property? -/
def nextWith (o : Result) (p : State → Bool) : Bool :=
  match o with
  | .next s => p s
  | .fault _ => false
  | .refused _ => false

/-- The start state of the vectors, with some registers set. -/
def withRegs (rs : List (RegId × Byte)) : State := rs.foldl (fun s r => s.setV r.1 r.2) State.reset

/-- One step on a word placed at the pc of a state. -/
def onWord (w : Nat) (s : State) : Result := step (s.withFetchWord 16 w)

/-- A state with I set. -/
def withI (i : Word) (s : State) : State := { s with i := i }

/-- A state with consecutive bytes in memory. -/
def withBytes (a : Nat) (bs : List Byte) (s : State) : State := { s with mem := Memory.putList s.params.font a bs s.mem }

/-- Mode MSB of SHL. -/
def inMsbMode (s : State) : State := { s with params := { s.params with shlFlagMode := .msb } }

/-- The random byte to come. -/
def drawing (b : Byte) (s : State) : State := { s with inputs := { s.inputs with rng := [b] } }

/-- The poll's answer to come. -/
def polled (h : Bool) (s : State) : State := { s with inputs := { s.inputs with polls := [h] } }

/-- Running, with the gate that fires next. -/
def gate (a : Activity) (s : State) : State := { s with status := .running, inputs := { s.inputs with schedule := [a] } }

/-- Waiting for a key for Vx, with what comes next. -/
def waiting (x : RegId) (k : Option Nibble) (s : State) : State :=
  { s with status := .waitKey x, inputs := { s.inputs with keys := [k] } }

/-- The state after `Init` with an image supplied. -/
def supplied (image : List Byte) : State := { State.reset with inputs := { Inputs.nothing with image := some image } }

/-- The status of a fault at a pc. -/
def faultIs (c : Cause) (pc : Word) (f : FaultInfo) (s : State) : Bool := s.status == .faulted c pc f

/-! ## WellFormed refuses -/

theorem test_wf_refuses_sys_cls : Instr.wf (.sys 0x0E0#12) = false := by decide
theorem test_wf_refuses_sys_ret : Instr.wf (.sys 0x0EE#12) = false := by decide
theorem test_wf_refuses_nop8_operation : Instr.wf (.nop8 1#4 2#4 0#4) = false := by decide
theorem test_wf_refuses_nopE_skp : Instr.wf (.nopE 1#4 0x9E#8) = false := by decide
theorem test_wf_refuses_nopF_read : Instr.wf (.nopF 1#4 0x07#8) = false := by decide

/-! ## Words written out from 30_encoding.md section 5, every constructor -/

theorem test_decode_family0 :
    decodeWord 0b0000000011100000#16 = .cls ∧ decodeWord 0b0000000011101110#16 = .ret ∧
    decodeWord 0b0000000100100011#16 = .sys 0x123#12 := by decide

theorem test_decode_control :
    decodeWord 0b0001001000110100#16 = .jp 0x234#12 ∧ decodeWord 0b0010001100000000#16 = .call 0x300#12 ∧
    decodeWord 0b0011001101000010#16 = .seImm 3#4 0x42#8 ∧ decodeWord 0b0100001101000010#16 = .sneImm 3#4 0x42#8 ∧
    decodeWord 0b0101000100100111#16 = .seReg 1#4 2#4 7#4 ∧ decodeWord 0b1001000100101111#16 = .sneReg 1#4 2#4 15#4 ∧
    decodeWord 0b1011111100000001#16 = .jpV0 0xF01#12 := by decide

theorem test_decode_literals :
    decodeWord 0b0110101001000010#16 = .ldImm 10#4 0x42#8 ∧ decodeWord 0b0111101011111111#16 = .addImm 10#4 0xFF#8 ∧
    decodeWord 0b1010001000000100#16 = .ldI 0x204#12 ∧ decodeWord 0b1100000000001111#16 = .rnd 0#4 0x0F#8 ∧
    decodeWord 0b1101000000010101#16 = .drw 0#4 1#4 5#4 := by decide

theorem test_decode_family8 :
    decodeWord 0b1000001100010000#16 = .ldReg 3#4 1#4 ∧ decodeWord 0b1000001100010001#16 = .or 3#4 1#4 ∧
    decodeWord 0b1000001100010010#16 = .and 3#4 1#4 ∧ decodeWord 0b1000001100010011#16 = .xor 3#4 1#4 ∧
    decodeWord 0b1000001100010100#16 = .addReg 3#4 1#4 ∧ decodeWord 0b1000001100010101#16 = .sub 3#4 1#4 ∧
    decodeWord 0b1000001100010110#16 = .shr 3#4 1#4 ∧ decodeWord 0b1000001100010111#16 = .subn 3#4 1#4 ∧
    decodeWord 0b1000001100011110#16 = .shl 3#4 1#4 ∧ decodeWord 0b1000000000011000#16 = .nop8 0#4 1#4 8#4 ∧
    decodeWord 0b1000111111111111#16 = .nop8 15#4 15#4 15#4 := by decide

theorem test_decode_familyE :
    decodeWord 0b1110010110011110#16 = .skp 5#4 ∧ decodeWord 0b1110010110100001#16 = .sknp 5#4 ∧
    decodeWord 0b1110000110011111#16 = .nopE 1#4 0x9F#8 ∧ decodeWord 0b1110111110100010#16 = .nopE 15#4 0xA2#8 := by decide

theorem test_decode_familyF :
    decodeWord 0b1111001100000111#16 = .ldVxDt 3#4 ∧ decodeWord 0b1111001100010101#16 = .ldDtVx 3#4 ∧
    decodeWord 0b1111010000001010#16 = .ldVxK 4#4 ∧ decodeWord 0b1111001100011000#16 = .ldStVx 3#4 ∧
    decodeWord 0b1111001000011110#16 = .addI 2#4 ∧ decodeWord 0b1111000000101001#16 = .ldF 0#4 ∧
    decodeWord 0b1111101000110011#16 = .ldB 10#4 ∧ decodeWord 0b1111001001010101#16 = .ldStore 2#4 ∧
    decodeWord 0b1111001001100101#16 = .ldLoad 2#4 ∧ decodeWord 0b1111000101010110#16 = .nopF 1#4 0x56#8 := by decide

/-- FD1, 20_memory.md R75: the byte at the lower address is the high one; the rest of the bytes is given back. -/
theorem test_decode_bytes : decode [0x12#8, 0x34#8, 0x60#8] = .ok (.jp 0x234#12, [0x60#8]) ∧ decode [0x12#8] = .error .truncated := by
  decide

theorem test_table_word : decodeTableWord 16 0xD015 = some (.drw 0#4 1#4 5#4) ∧ decodeTableWord 17 0xD015 = none := by decide

theorem test_assembly :
    assembly (.drw 0#4 1#4 5#4) = "DRW V0, V1, 0x5" ∧ assembly (.jp 0x20C#12) = "JP 0x20C" := by decide

/-! ## Control flow and fetch -/

-- FD2, FD5: the last word of memory, and an odd pc.
theorem test_fetch_last_word :
    nextWith (onWord 0x00E0 { State.reset with pc := 0x0FFE#16 }) (fun t => t.pc == 0x1000#16 && !t.failed) = true := by decide
theorem test_fetch_odd :
    nextWith (onWord 0x6007 { State.reset with pc := 0x0201#16 }) (fun t => t.pc == 0x0203#16 && t.getV 0#4 == 7#8) = true := by decide

-- FD3, FD4: a fetch past memory faults and the pc stays.
theorem test_fetch_fault :
    nextWith (step (gate .step { State.reset with pc := 0x0FFF#16 })) (faultIs .fetchRange 0x0FFF#16 .pcOnly) = true := by decide

-- FD6, FD7.
theorem test_sys : nextWith (onWord 0x0123 State.reset) (fun t => t.pc == 0x0202#16) = true := by decide
theorem test_sys_near_cls : nextWith (onWord 0x00E1 State.reset) (fun t => t.pc == 0x0202#16 && t.status == .running) = true := by
  decide

-- FD8, FD10, FD11.
theorem test_nop8 :
    nextWith (onWord 0x8018 (withRegs [(0#4, 1#8), (1#4, 2#8)])) (fun t => t.pc == 0x0202#16 && t.getV 0#4 == 1#8) = true := by decide
theorem test_nopE : nextWith (onWord 0xE19F State.reset) (fun t => t.pc == 0x0202#16) = true := by decide
theorem test_nopF : nextWith (onWord 0xF156 State.reset) (fun t => t.pc == 0x0202#16) = true := by decide

-- CF1, CF2.
theorem test_jp : nextWith (onWord 0x1234 State.reset) (fun t => t.pc == 0x0234#16) = true := by decide
theorem test_jp_zero : nextWith (onWord 0x1000 State.reset) (fun t => t.pc == 0#16) = true := by decide

-- CF4, CF7.
theorem test_call : nextWith (onWord 0x2300 State.reset) (fun t => t.pc == 0x0300#16 && t.stack == [0x0200#16]) = true := by decide
theorem test_call_overflow :
    nextWith (onWord 0x2400 { State.reset with stack := List.replicate 16 0x0300#16 })
      (faultIs .stackOverflow 0x0200#16 .pcOnly) = true := by decide

-- CF5, CF6.
theorem test_ret :
    nextWith (onWord 0x00EE { State.reset with pc := 0x0300#16, stack := [0x0200#16] })
      (fun t => t.pc == 0x0202#16 && t.stack == []) = true := by decide
theorem test_ret_underflow :
    nextWith (onWord 0x00EE { State.reset with pc := 0x0300#16 }) (faultIs .stackUnderflow 0x0300#16 .pcOnly) = true := by decide

-- CF9 to CF12.
theorem test_se_imm : nextWith (onWord 0x3342 (withRegs [(3#4, 0x42#8)])) (fun t => t.pc == 0x0204#16) = true := by decide
theorem test_se_imm_not : nextWith (onWord 0x3342 (withRegs [(3#4, 0x41#8)])) (fun t => t.pc == 0x0202#16) = true := by decide
theorem test_sne_imm : nextWith (onWord 0x4342 (withRegs [(3#4, 0x41#8)])) (fun t => t.pc == 0x0204#16) = true := by decide
theorem test_sne_imm_not : nextWith (onWord 0x4342 (withRegs [(3#4, 0x42#8)])) (fun t => t.pc == 0x0202#16) = true := by decide

-- FD12, CF15, CF16.
theorem test_se_reg : nextWith (onWord 0x5127 (withRegs [(1#4, 7#8), (2#4, 7#8)])) (fun t => t.pc == 0x0204#16) = true := by decide
theorem test_sne_reg : nextWith (onWord 0x9120 (withRegs [(1#4, 7#8), (2#4, 8#8)])) (fun t => t.pc == 0x0204#16) = true := by decide
theorem test_sne_reg_same : nextWith (onWord 0x9110 State.reset) (fun t => t.pc == 0x0202#16) = true := by decide

-- CF17, CF18.
theorem test_jp_v0 : nextWith (onWord 0xB300 (withRegs [(0#4, 0x10#8)])) (fun t => t.pc == 0x0310#16) = true := by decide
theorem test_jp_v0_past : nextWith (onWord 0xBF01 (withRegs [(0#4, 0xFF#8)])) (fun t => t.pc == 0x1000#16) = true := by decide

/-! ## Arithmetic and logic -/

-- AL1, AL3.
theorem test_ld_imm : nextWith (onWord 0x6A42 State.reset) (fun t => t.getV 10#4 == 0x42#8) = true := by decide
theorem test_add_imm :
    nextWith (onWord 0x7AFF (withRegs [(10#4, 1#8), (vf, 5#8)])) (fun t => t.getV 10#4 == 0#8 && t.getV vf == 5#8) = true := by decide

-- AL4 to AL7.
theorem test_ld_reg : nextWith (onWord 0x8010 (withRegs [(1#4, 0x3C#8)])) (fun t => t.getV 0#4 == 0x3C#8) = true := by decide
theorem test_or :
    nextWith (onWord 0x8011 (withRegs [(0#4, 0x0F#8), (1#4, 0xF0#8), (vf, 5#8)]))
      (fun t => t.getV 0#4 == 0xFF#8 && t.getV vf == 5#8) = true := by decide
theorem test_and : nextWith (onWord 0x8012 (withRegs [(0#4, 0x3C#8), (1#4, 0x0F#8)])) (fun t => t.getV 0#4 == 0x0C#8) = true := by
  decide
theorem test_xor : nextWith (onWord 0x8013 (withRegs [(0#4, 0xFF#8), (1#4, 0x0F#8)])) (fun t => t.getV 0#4 == 0xF0#8) = true := by
  decide

-- AL13, AL14.
theorem test_add_reg_flag_last : nextWith (onWord 0x8F14 (withRegs [(vf, 0xF0#8), (1#4, 0x20#8)])) (fun t => t.getV vf == 1#8) = true := by
  decide
theorem test_add_reg_old_vf :
    nextWith (onWord 0x80F4 (withRegs [(0#4, 1#8), (vf, 0xFF#8)])) (fun t => t.getV 0#4 == 0#8 && t.getV vf == 1#8) = true := by decide

-- AL15, AL16.
theorem test_sub_equal :
    nextWith (onWord 0x8015 (withRegs [(0#4, 5#8), (1#4, 5#8)])) (fun t => t.getV 0#4 == 0#8 && t.getV vf == 1#8) = true := by decide
theorem test_sub_borrow :
    nextWith (onWord 0x8015 (withRegs [(0#4, 3#8), (1#4, 5#8)])) (fun t => t.getV 0#4 == 0xFE#8 && t.getV vf == 0#8) = true := by decide

-- AL22, AL23.
theorem test_shr_ignores_y :
    nextWith (onWord 0x80F6 (withRegs [(0#4, 3#8), (vf, 0x40#8)])) (fun t => t.getV 0#4 == 1#8 && t.getV vf == 1#8) = true := by decide
theorem test_shr_flag_last : nextWith (onWord 0x8F06 (withRegs [(vf, 2#8)])) (fun t => t.getV vf == 0#8) = true := by decide

-- AL24, AL25.
theorem test_subn :
    nextWith (onWord 0x8017 (withRegs [(0#4, 1#8), (1#4, 0x10#8)])) (fun t => t.getV 0#4 == 0x0F#8 && t.getV vf == 1#8) = true := by
  decide
theorem test_subn_borrow :
    nextWith (onWord 0x8017 (withRegs [(0#4, 5#8), (1#4, 3#8)])) (fun t => t.getV 0#4 == 0xFE#8 && t.getV vf == 0#8) = true := by decide

-- AL29, AL30.
theorem test_shl_zero_mode :
    nextWith (onWord 0x800E (withRegs [(0#4, 0x81#8)])) (fun t => t.getV 0#4 == 2#8 && t.getV vf == 0#8) = true := by decide
theorem test_shl_msb_mode :
    nextWith (onWord 0x800E (inMsbMode (withRegs [(0#4, 0x81#8)]))) (fun t => t.getV 0#4 == 2#8 && t.getV vf == 1#8) = true := by decide

-- AL34.
theorem test_rnd : nextWith (onWord 0xC00F (drawing 0xA7#8 State.reset)) (fun t => t.getV 0#4 == 7#8) = true := by decide

/-! ## The address register and memory -/

-- MX1, MX4, MX5, MX7.
theorem test_ld_i : nextWith (onWord 0xA204 State.reset) (fun t => t.i == 0x0204#16) = true := by decide
theorem test_add_i_past : nextWith (onWord 0xF21E (withI 0x0FFF#16 (withRegs [(2#4, 1#8)]))) (fun t => t.i == 0x1000#16 && !t.failed) = true := by
  decide
theorem test_add_i_wraps : nextWith (onWord 0xF21E (withI 0xFFFF#16 (withRegs [(2#4, 1#8)]))) (fun t => t.i == 0#16) = true := by decide
theorem test_ld_f : nextWith (onWord 0xF029 (withRegs [(0#4, 0x1A#8)])) (fun t => t.i == 0x32#16) = true := by decide

-- MX9, MX12.
theorem test_ld_b :
    nextWith (onWord 0xF033 (withI 0x0204#16 (withRegs [(0#4, 234#8)])))
      (fun t => t.byteAt 0x204 == 2#8 && t.byteAt 0x205 == 3#8 && t.byteAt 0x206 == 4#8 && t.i == 0x0204#16) = true := by decide
theorem test_ld_b_fault :
    nextWith (onWord 0xF033 (withI 0x0FFE#16 (withRegs [(0#4, 123#8)])))
      (faultIs .writeRange 0x0200#16 (.addr 0x1000)) = true := by decide

-- MX13, MX17.
theorem test_ld_store :
    nextWith (onWord 0xF255 (withI 0x0300#16 (withRegs [(0#4, 1#8), (1#4, 2#8), (2#4, 3#8)])))
      (fun t => t.byteAt 0x300 == 1#8 && t.byteAt 0x301 == 2#8 && t.byteAt 0x302 == 3#8 && t.i == 0x0300#16) = true := by decide
theorem test_ld_store_fault :
    nextWith (onWord 0xF255 (withI 0x0FFE#16 (withRegs [(0#4, 1#8)]))) (faultIs .writeRange 0x0200#16 (.addr 0x1000)) = true := by decide

-- MX21, MX19.
theorem test_ld_load_font :
    nextWith (onWord 0xF465 State.reset)
      (fun t => t.getV 0#4 == 0xF0#8 && t.getV 1#4 == 0x90#8 && t.getV 4#4 == 0xF0#8 && t.i == 0#16) = true := by decide
theorem test_ld_load_fault :
    nextWith (onWord 0xF165 (withI 0x0FFF#16 State.reset)) (faultIs .readRange 0x0200#16 (.addr 0x1000)) = true := by decide

/-! ## Display -/

-- DS1.
theorem test_cls :
    nextWith (onWord 0x00E0 (fbToggle 7 (withRegs [(vf, 5#8)]))) (fun t => !t.pixel 7 && t.getV vf == 5#8) = true := by decide

-- DS9, DS8.
theorem test_drw_collision :
    nextWith (onWord 0xD011 (withI 0x0300#16 (withBytes 0x300 [0x80#8] (fbToggle 0 State.reset))))
      (fun t => !t.pixel 0 && t.getV vf == 1#8) = true := by decide
theorem test_drw_latches_vf :
    nextWith (onWord 0xDF11 (withI 50#16 (withRegs [(vf, 8#8)])))
      (fun t => t.pixel 8 && t.pixel 11 && !t.pixel 12 && !t.pixel 0 && t.getV vf == 0#8) = true := by decide

/-! ## Keys, timers and the engine's other transitions -/

-- TI11, TI13, TI15.
theorem test_skp : nextWith (onWord 0xE59E (polled true (withRegs [(5#4, 10#8)]))) (fun t => t.pc == 0x0204#16) = true := by decide
theorem test_skp_range :
    nextWith (onWord 0xE59E (withRegs [(5#4, 0x10#8)])) (faultIs .keyRange 0x0200#16 (.key 0x10#8)) = true := by decide
theorem test_sknp : nextWith (onWord 0xE5A1 (polled false (withRegs [(5#4, 10#8)]))) (fun t => t.pc == 0x0204#16) = true := by decide
theorem test_sknp_held : nextWith (onWord 0xE5A1 (polled true (withRegs [(5#4, 10#8)]))) (fun t => t.pc == 0x0202#16) = true := by
  decide

-- TI1, TI2, TI3, TI9.
theorem test_ld_dt : nextWith (onWord 0xF315 (withRegs [(3#4, 0x3C#8)])) (fun t => t.dt == 0x3C#8) = true := by decide
theorem test_ld_vx_dt : nextWith (onWord 0xF307 { State.reset with dt := 0x3C#8 }) (fun t => t.getV 3#4 == 0x3C#8) = true := by decide
theorem test_ld_st : nextWith (onWord 0xF318 (withRegs [(3#4, 2#8)])) (fun t => t.st == 2#8) = true := by decide
theorem test_ld_vx_k : nextWith (onWord 0xF40A State.reset) (fun t => t.status == .waitKey 4#4 && t.pc == 0x0200#16) = true := by decide

-- TI8, TI5, TI10.
theorem test_tick_both :
    nextWith (step (gate .tick { State.reset with dt := 1#8, st := 1#8 }))
      (fun t => t.dt == 0#8 && t.st == 0#8 && t.outputs == [.tone]) = true := by decide
theorem test_tick_zero :
    nextWith (step (gate .tick State.reset)) (fun t => t.dt == 0#8 && t.st == 0#8 && t.outputs == []) = true := by decide
theorem test_key_arrives :
    nextWith (step (waiting 4#4 (some 7#4) { State.reset with dt := 5#8 }))
      (fun t => t.getV 4#4 == 7#8 && t.pc == 0x0202#16 && t.status == .running && t.dt == 5#8) = true := by decide

-- P1's image is loaded at 512; P10: no image.
theorem test_load :
    nextWith (step (supplied [0x60#8, 5#8, 0x70#8, 3#8]))
      (fun t => t.status == .running && t.byteAt 512 == 0x60#8 && t.byteAt 515 == 3#8 && t.byteAt 516 == 0#8 && t.pc == 512#16) = true := by
  decide
theorem test_load_missing : nextWith (step State.reset) (fun t => t.status == .loadFailed .missing) = true := by decide

/-! ## Witnesses: states that meet the hypotheses of each statement that has some -/

/-- A running state whose next step runs this word. -/
def placed (w : Nat) (s : State) : State := s.withFetchWord 16 w

/-- A running state, about to run a CALL, that has the invariant. -/
theorem placed_call_inv : (placed 0x2300 State.reset).Inv where
  memory := by decide
  depth := fun _ => Nat.zero_le _
  returns := fun _ _ h => nomatch h
  pcBound := fun _ => by decide
  waiting := fun _ h => nomatch h
  noRegRange := fun _ _ h => nomatch h

theorem wit_EveryStepKeepsTheInvariant : ∃ s t : State, s.Inv ∧ step s = .next t ∧ t.stack = [0x0200#16] :=
  ⟨_, _, placed_call_inv, rfl, rfl⟩

theorem wit_LoadPutsTheImageAt512_missing : ∃ s : State, s.status = .reset ∧ s.inputs.image = none := ⟨State.reset, by decide⟩
theorem wit_LoadPutsTheImageAt512_tooLarge :
    ∃ (s : State) (image : List Byte), s.status = .reset ∧ s.inputs.image = some image ∧ 3584 < image.length ∧ image.length = 3585 :=
  ⟨supplied (List.replicate 3585 0#8), _, rfl, rfl, by rw [List.length_replicate]; decide, List.length_replicate⟩
theorem wit_LoadPutsTheImageAt512_fits :
    ∃ (s : State) (image : List Byte), s.status = .reset ∧ s.inputs.image = some image ∧ image.length ≤ 3584 ∧ image.length = 3584 :=
  ⟨supplied (List.replicate 3584 0#8), _, rfl, rfl, by rw [List.length_replicate], List.length_replicate⟩

theorem wit_StepRunsTheDecodedInstruction :
    ∃ s : State, s.status = .running ∧ s.inputs.nextActivity = .step ∧ s.pc.toNat + 1 < 4096 ∧
      decode [s.byteAt s.pc.toNat, s.byteAt (s.pc.toNat + 1)] = .ok (.jp 0x234#12, []) :=
  ⟨placed 0x1234 State.reset, by decide⟩

theorem wit_FetchPastMemoryFaults :
    ∃ s : State, s.status = .running ∧ s.inputs.nextActivity = .step ∧ 4096 ≤ s.pc.toNat + 1 :=
  ⟨gate .step { State.reset with pc := 0x0FFF#16 }, by decide⟩

theorem wit_TerminalStatusEnablesNothing :
    (∃ s : State, s.status = .faulted .stackUnderflow 0x200#16 .pcOnly) ∧ ∃ s : State, s.status = .loadFailed .missing :=
  ⟨⟨{ State.reset with status := .faulted .stackUnderflow 0x200#16 .pcOnly }, rfl⟩, ⟨{ State.reset with status := .loadFailed .missing }, rfl⟩⟩

theorem wit_TickCountsBothTimersDown : ∃ s : State, s.status = .running ∧ s.inputs.nextActivity = .tick ∧ s.dt = 0#8 ∧ s.st = 255#8 :=
  ⟨gate .tick { State.reset with st := 255#8 }, by decide⟩

theorem wit_KeyWaitFreezesTheMachine : ∃ s t : State, s.status = .waitKey 4#4 ∧ step s = .next t ∧ s.dt = 5#8 :=
  ⟨waiting 4#4 (some 7#4) { State.reset with dt := 5#8 }, _, rfl, rfl, rfl⟩

theorem wit_KeyArrivalCompletesTheWait :
    (∃ s : State, s.status = .waitKey 15#4 ∧ s.inputs.nextKey = none) ∧
    ∃ s : State, s.status = .waitKey 15#4 ∧ s.inputs.nextKey = some 15#4 :=
  ⟨⟨waiting 15#4 none State.reset, by decide⟩, ⟨waiting 15#4 (some 15#4) State.reset, by decide⟩⟩

theorem wit_DecodeOfEncodeIsTheInstruction :
    Instr.wf (.sys 0xFFF#12) = true ∧ Instr.wf (.nop8 0#4 0#4 15#4) = true ∧ Instr.wf (.nopE 0#4 0#8) = true ∧
    Instr.wf (.nopF 15#4 255#8) = true ∧ Instr.wf (.drw 15#4 15#4 15#4) = true := by decide

theorem wit_RetReturnsOrUnderflows :
    (∃ s : State, s.stack = [] ++ [0x0200#16]) ∧ ∃ s : State, s.stack = [] :=
  ⟨⟨{ State.reset with stack := [0x0200#16] }, rfl⟩, ⟨State.reset, rfl⟩⟩

theorem wit_CallPushesItsOwnAddressOrOverflows :
    (∃ s : State, s.stack.length < 16 ∧ s.stack.length = 15) ∧ ∃ s : State, 16 ≤ s.stack.length ∧ s.stack.length = 16 :=
  ⟨⟨{ State.reset with stack := List.replicate 15 0x200#16 }, by decide⟩, ⟨{ State.reset with stack := List.replicate 16 0x200#16 }, by decide⟩⟩

theorem wit_NoOpsOnlyAdvance :
    (0x0E1#12 ≠ 0x0E0#12 ∧ 0x0E1#12 ≠ 0x0EE#12) ∧
    ((∃ nnn, Instr.sys 0#12 = .sys nnn) ∧ (∃ x y n, Instr.nop8 0#4 1#4 8#4 = .nop8 x y n) ∧
      (∃ x kk, Instr.nopE 0#4 0#8 = .nopE x kk) ∧ ∃ x kk, Instr.nopF 0#4 0#8 = .nopF x kk) :=
  ⟨by decide, ⟨_, rfl⟩, ⟨_, _, _, rfl⟩, ⟨_, _, rfl⟩, ⟨_, _, rfl⟩⟩

theorem wit_ReturnComesBackAfterTheCall :
    ∃ s t u : State, s.stack.length < 16 ∧ exec (.call 0x300#12) s = .next t ∧ u.stack = t.stack :=
  ⟨State.reset, _, _, by decide, rfl, rfl⟩

theorem wit_IdleStepChangesNothing : ∃ s : State, s.idle = true ∧ s.inputs.nextActivity = .step :=
  ⟨placed 0x1200 State.reset, by decide⟩

theorem wit_AddRegSumsAndCarries : (0#4 : RegId) ≠ vf ∧ (14#4 : RegId) ≠ vf := by decide
theorem wit_SubAndSubnBorrow : (0#4 : RegId) ≠ vf ∧ (14#4 : RegId) ≠ vf := by decide

theorem wit_ShiftsInPlaceIgnoreY :
    (0#4 : RegId) ≠ vf ∧ (∃ s : State, s.params.shlFlagMode = .zero) ∧ ∃ s : State, s.params.shlFlagMode = .msb :=
  ⟨by decide, ⟨State.reset, rfl⟩, ⟨inMsbMode State.reset, rfl⟩⟩

theorem wit_RndMasksADraw : (drawing 0xA7#8 State.reset).inputs.rng = 0xA7#8 :: [] ∧ (0x0F#8).getLsbD 7 = false := by decide

theorem wit_LdBStoresTheDecimalDigits :
    (∃ s : State, effectiveAddress s 2 < 4096 ∧ s.i = 0x0FFD#16) ∧ ∃ s : State, 4096 ≤ effectiveAddress s 2 ∧ s.i = 0x0FFE#16 :=
  ⟨⟨withI 0x0FFD#16 State.reset, by decide⟩, ⟨withI 0x0FFE#16 State.reset, by decide⟩⟩

theorem wit_LdStore_LdLoad_boundaries :
    (∃ s : State, effectiveAddress s (15#4 : RegId).toNat < 4096 ∧ s.i = 0x0FF0#16) ∧
    ∃ s : State, 4096 ≤ effectiveAddress s (15#4 : RegId).toNat ∧ s.i = 0x0FF1#16 :=
  ⟨⟨withI 0x0FF0#16 State.reset, by decide⟩, ⟨withI 0x0FF1#16 State.reset, by decide⟩⟩

theorem wit_StoredWordIsFetchedAtOnce :
    ∃ s t : State, 1 ≤ (1#4 : RegId).toNat ∧ effectiveAddress s (1#4 : RegId).toNat < 4096 ∧ exec (.ldStore 1#4) s = .next t :=
  ⟨withI 0x0FFE#16 State.reset, _, by decide, by decide, rfl⟩

theorem wit_DrwFlipsThePixelsUnderTheSprite :
    (∃ s : State, (0#4 : Nibble) = 0#4 ∧ s.i = 0xFFFF#16) ∧ ∃ s : State, effectiveAddress s (2#4 : Nibble).toNat ≤ 4096 ∧ s.i = 0x0FFE#16 :=
  ⟨⟨withI 0xFFFF#16 State.reset, by decide⟩, ⟨withI 0x0FFE#16 State.reset, by decide⟩⟩

theorem wit_DrwFaultsPastMemory :
    ∃ s : State, (2#4 : Nibble) ≠ 0#4 ∧ 4096 < effectiveAddress s (2#4 : Nibble).toNat ∧ s.i = 0x0FFF#16 :=
  ⟨withI 0x0FFF#16 State.reset, by decide⟩

theorem wit_DrawingTwiceRestoresTheScreen :
    ∃ s t u : State, (0#4 : RegId) ≠ vf ∧ (1#4 : RegId) ≠ vf ∧ effectiveAddress s (1#4 : Nibble).toNat ≤ 4096 ∧
      exec (.drw 0#4 1#4 1#4) s = .next t ∧ u.fb = t.fb ∧ u.getV 0#4 = s.getV 0#4 ∧ u.getV 1#4 = s.getV 1#4 ∧ u.i = s.i ∧
      ∀ k, k < (1#4 : Nibble).toNat → u.byteAt (effectiveAddress s k) = s.byteAt (effectiveAddress s k) :=
  ⟨State.reset, _, _, by decide, by decide, by decide, rfl, rfl, rfl, rfl, rfl, fun _ _ => rfl⟩

theorem wit_KeySkipsFollowThePoll :
    (∃ s : State, (s.getV 5#4).toNat ≤ 15 ∧ (s.getV 5#4).toNat = 15) ∧ ∃ s : State, 15 < (s.getV 5#4).toNat ∧ (s.getV 5#4).toNat = 16 :=
  ⟨⟨withRegs [(5#4, 15#8)], by decide⟩, ⟨withRegs [(5#4, 16#8)], by decide⟩⟩

theorem wit_OnlyThreeInstructionsWriteI : ∃ s t : State, step s = .next t ∧ t.failed = false ∧ t.i ≠ s.i :=
  ⟨placed 0xA204 State.reset, _, rfl, by decide, by decide⟩

theorem wit_OnlyCallAndRetReachTheStack : ∃ s t : State, step s = .next t ∧ t.failed = false ∧ t.stack ≠ s.stack :=
  ⟨placed 0x2300 State.reset, _, rfl, by decide, by decide⟩

theorem wit_OnlyClsAndDrwChangePixels : ∃ s t : State, step s = .next t ∧ t.failed = false ∧ t.pixel 7 ≠ s.pixel 7 :=
  ⟨placed 0x00E0 (fbToggle 7 State.reset), _, rfl, by decide, by decide⟩

theorem wit_OnlyTwoInstructionsAndTheLoadWriteMemory :
    ∃ s t : State, step s = .next t ∧ t.failed = false ∧ t.byteAt 0x300 ≠ s.byteAt 0x300 :=
  ⟨placed 0xF055 (withI 0x300#16 (withRegs [(0#4, 9#8)])), _, rfl, by decide, by decide⟩

theorem wit_TimersRiseOnlyByTheirWrite :
    (∃ s t : State, step s = .next t ∧ t.failed = false ∧ s.dt.toNat < t.dt.toNat) ∧
    ∃ s t : State, step s = .next t ∧ t.failed = false ∧ s.st.toNat < t.st.toNat :=
  ⟨⟨placed 0xF315 (withRegs [(3#4, 1#8)]), _, rfl, by decide, by decide⟩,
   ⟨placed 0xF318 (withRegs [(3#4, 1#8)]), _, rfl, by decide, by decide⟩⟩

theorem wit_VfChangesOnlyAsFlagOrDestination :
    (∃ s t : State, step s = .next t ∧ t.failed = false ∧ t.getV vf ≠ s.getV vf ∧ s.status = .waitKey vf) ∧
    ∃ s t : State, step s = .next t ∧ t.failed = false ∧ t.getV vf ≠ s.getV vf ∧ s.status = .running :=
  ⟨⟨waiting vf (some 7#4) State.reset, _, rfl, by decide, by decide, by decide⟩,
   ⟨placed 0x8014 (withRegs [(0#4, 0xFF#8), (1#4, 1#8)]), _, rfl, by decide, by decide, by decide⟩⟩

/-- The instruction, run while Running, ends in this fault. -/
def raises (i : Instr) (s : State) (c : Cause) (f : FaultInfo) : Prop :=
  s.status = .running ∧ ∃ t, exec i s = .next t ∧ t.status = .faulted c 0x200#16 f

theorem wit_EachCauseHasItsRaisers_stack :
    raises .ret (gate .step State.reset) .stackUnderflow .pcOnly ∧
    raises (.call 0x300#12) (gate .step { State.reset with stack := List.replicate 16 0x200#16 }) .stackOverflow .pcOnly :=
  ⟨⟨rfl, _, rfl, rfl⟩, ⟨rfl, _, rfl, rfl⟩⟩

theorem wit_EachCauseHasItsRaisers_read :
    raises (.drw 0#4 1#4 2#4) (gate .step (withI 0x0FFF#16 State.reset)) .readRange (.addr 4096) ∧
    raises (.ldLoad 1#4) (gate .step (withI 0x0FFF#16 State.reset)) .readRange (.addr 4096) ∧
    raises (.ldLoad 0#4) (gate .step (withI 0x1001#16 State.reset)) .readRange (.addr 4097) :=
  ⟨⟨rfl, _, rfl, rfl⟩, ⟨rfl, _, rfl, rfl⟩, ⟨rfl, _, rfl, rfl⟩⟩

theorem wit_EachCauseHasItsRaisers_write :
    raises (.ldB 0#4) (gate .step (withI 0x0FFE#16 State.reset)) .writeRange (.addr 4096) ∧
    raises (.ldStore 1#4) (gate .step (withI 0x0FFF#16 State.reset)) .writeRange (.addr 4096) :=
  ⟨⟨rfl, _, rfl, rfl⟩, ⟨rfl, _, rfl, rfl⟩⟩

theorem wit_EachCauseHasItsRaisers_key :
    raises (.skp 5#4) (gate .step (withRegs [(5#4, 16#8)])) .keyRange (.key 16#8) ∧
    raises (.sknp 5#4) (gate .step (withRegs [(5#4, 16#8)])) .keyRange (.key 16#8) :=
  ⟨⟨rfl, _, rfl, rfl⟩, ⟨rfl, _, rfl, rfl⟩⟩

theorem wit_StatusMovesAsItsTableSays :
    (∃ s t : State, step s = .next t ∧ s.status = .running) ∧ (∃ s t : State, step s = .next t ∧ s.status = .waitKey 4#4) ∧
    ∃ s t : State, step s = .next t ∧ s.status = .reset :=
  ⟨⟨placed 0xF40A State.reset, _, rfl, rfl⟩, ⟨waiting 4#4 none State.reset, _, rfl, rfl⟩, ⟨State.reset, _, rfl, rfl⟩⟩

theorem wit_ParametersStayAndOutputsGrow : ∃ s t : State, step s = .next t ∧ t.outputs ≠ s.outputs :=
  ⟨gate .tick { State.reset with st := 1#8 }, _, rfl, by decide⟩

/-- Steps and ticks in turn. -/
def inTurn (n : Nat) : Activity := if n % 2 = 0 then .step else .tick

theorem inTurn_fair (s : State) : fairRun inTurn s := by
  rintro (_ | _) n -
  · exact ⟨2 * n, by omega, by simp [inTurn]⟩
  · exact ⟨2 * n + 1, by omega, by simp [inTurn, Nat.add_mod]⟩

theorem wit_FairIdleRunCountsTheTimersDown :
    ∃ (choice : Nat → Activity) (s : State), s.idle = true ∧ fairRun choice s ∧ s.dt = 3#8 ∧ s.st = 255#8 :=
  ⟨inTurn, placed 0x1200 { State.reset with dt := 3#8, st := 255#8 }, by decide, inTurn_fair _, rfl, rfl⟩

theorem wit_StarvedRunsAreUnfair : ∃ s : State, s.status = .running ∧ s.idle = true := ⟨placed 0x1200 State.reset, by decide⟩

-- A tick and a step under a given interleaving (R232).
theorem test_run_in_turn :
    nextWith (runUnder inTurn 2 (placed 0x6005 { State.reset with dt := 3#8 }))
      (fun t => t.getV 0#4 == 5#8 && t.dt == 2#8 && t.pc == 0x0202#16) = true := by decide

end Sys2Proof.Tests
end

section
/-! Control flow (40_control_flow.md): jumps, skips and no-ops complete with nothing but the pc moved. -/

namespace Sys2Proof

/-! ## Decoding -/

theorem wordAddr_injective (op : Nibble) : Function.Injective (wordAddr op) := fun a b h => by
  simpa using congrArg fieldNNN h

theorem decodeWord_jp (nnn : Addr12) : decodeWord (wordAddr 1#4 nnn) = .jp nnn := by
  simp [decodeWord]

theorem decodeWord_seImm (x : RegId) (kk : Byte) : decodeWord (wordXKK 3#4 x kk) = .seImm x kk := by
  simp [decodeWord]

theorem decodeWord_sneImm (x : RegId) (kk : Byte) : decodeWord (wordXKK 4#4 x kk) = .sneImm x kk := by
  simp [decodeWord]

theorem decodeWord_seReg (x y : RegId) (n : Nibble) : decodeWord (wordXYN 5#4 x y n) = .seReg x y n := by
  simp [decodeWord]

theorem decodeWord_sneReg (x y : RegId) (n : Nibble) : decodeWord (wordXYN 9#4 x y n) = .sneReg x y n := by
  simp [decodeWord]

/-- The two words of family 0 that are not SYS differ from this one in their literal (30_encoding.md R108). -/
theorem decodeWord_sys {nnn : Addr12} (hcls : nnn ≠ 0x0E0#12) (hret : nnn ≠ 0x0EE#12) :
    decodeWord (wordAddr 0#4 nnn) = .sys nnn := by
  have notCls : wordAddr 0#4 nnn ≠ 0x00E0#16 := (wordAddr_injective 0#4).ne hcls
  have notRet : wordAddr 0#4 nnn ≠ 0x00EE#16 := (wordAddr_injective 0#4).ne hret
  simp [decodeWord, decodeFamily0, notCls, notRet]

end Sys2Proof

namespace Sys2Proof.Machine

/-! ## Completing with nothing but the pc moved -/

/-- An answer in which the instruction has completed, with the pc at `target` and everything else as in `s`. -/
def OnlyPcMoves (s : State) (target : Nat) (r : Result) : Prop :=
  ∃ t, r = .next t ∧ t = { s with pc := t.pc } ∧ SameMemory s t ∧ t.pc.toNat = target

/-- Where only the pc has moved before the advance, only the pc has moved after it (10_state.md R37). -/
theorem onlyPcMoves_completed {s u : State} (hu : u = { s with pc := u.pc }) :
    OnlyPcMoves s (u.pc + 2#16).toNat (completed u) := by
  refine ⟨advance u, rfl, ?_, fun a => ?_, rfl⟩
  · rw [hu]; rfl
  · rw [hu]; rfl

theorem onlyPcMoves_completed_self (s : State) : OnlyPcMoves s ((s.pc.toNat + 2) % 65536) (completed s) := by
  simpa [BitVec.toNat_add] using onlyPcMoves_completed (s := s) (u := s) rfl

/-- The advance adds the 2 that the jump took off, so it lands on the target (40_control_flow.md R130). -/
theorem onlyPcMoves_completed_jump (target : Nat) (s : State) :
    OnlyPcMoves s (target % 65536) (completed (jump target s)) := by
  have h := onlyPcMoves_completed (s := s) (u := jump target s) rfl
  rwa [jump_pc, BitVec.sub_add_cancel, BitVec.toNat_ofNat] at h

/-- A skip that is taken adds its 2 to the advance's (40_control_flow.md R130). -/
theorem onlyPcMoves_completed_skipIf (c : Bool) (s : State) :
    OnlyPcMoves s ((s.pc.toNat + if c then 4 else 2) % 65536) (completed (skipIf c s)) := by
  cases c with
  | true => simpa [skipIf, BitVec.toNat_add, Nat.add_assoc] using onlyPcMoves_completed (s := s) (u := skip s) rfl
  | false => simpa [skipIf] using onlyPcMoves_completed_self s

theorem onlyPcMoves_completed_skipIf_eq (a b : Byte) (s : State) :
    OnlyPcMoves s ((s.pc.toNat + if a = b then 4 else 2) % 65536) (completed (skipIf (a == b) s)) := by
  simpa only [beq_iff_eq] using onlyPcMoves_completed_skipIf (a == b) s

theorem onlyPcMoves_completed_skipIf_ne (a b : Byte) (s : State) :
    OnlyPcMoves s ((s.pc.toNat + if a = b then 2 else 4) % 65536) (completed (skipIf (a != b) s)) := by
  simpa only [bne_iff_ne, ite_not] using onlyPcMoves_completed_skipIf (a != b) s

/-! ## The meanings -/

theorem exec_jp (nnn : Addr12) (s : State) : exec (.jp nnn) s = completed (jump nnn.toNat s) := rfl

theorem exec_seImm (x : RegId) (kk : Byte) (s : State) :
    exec (.seImm x kk) s = completed (skipIf (s.getV x == kk) s) := rfl

theorem exec_sneImm (x : RegId) (kk : Byte) (s : State) :
    exec (.sneImm x kk) s = completed (skipIf (s.getV x != kk) s) := rfl

theorem exec_seReg (x y : RegId) (n : Nibble) (s : State) :
    exec (.seReg x y n) s = completed (skipIf (s.getV x == s.getV y) s) := rfl

theorem exec_sneReg (x y : RegId) (n : Nibble) (s : State) :
    exec (.sneReg x y n) s = completed (skipIf (s.getV x != s.getV y) s) := rfl

theorem exec_sys (nnn : Addr12) (s : State) : exec (.sys nnn) s = completed s := rfl

theorem exec_nop8 (x y : RegId) (n : Nibble) (s : State) : exec (.nop8 x y n) s = completed s := rfl

theorem exec_nopE (x : RegId) (kk : Byte) (s : State) : exec (.nopE x kk) s = completed s := rfl

theorem exec_nopF (x : RegId) (kk : Byte) (s : State) : exec (.nopF x kk) s = completed s := rfl

/-! ## The obligations -/

/-- Settles O17: the literal is below 2^16, so the jump's target is not reduced. -/
theorem jpLandsOnItsTarget : Obligations.JpLandsOnItsTarget := by
  unfold Obligations.JpLandsOnItsTarget
  intro nnn s
  obtain ⟨t, hrun, hframe, hmem, hpc⟩ := onlyPcMoves_completed_jump nnn.toNat s
  have hfits : nnn.toNat % 65536 = nnn.toNat := by omega
  exact ⟨decodeWord_jp nnn, t, hrun, hpc.trans hfits, hmem, hframe⟩

/-- Settles O19. -/
theorem skipsOnLiteralMoveThePc : Obligations.SkipsOnLiteralMoveThePc := by
  unfold Obligations.SkipsOnLiteralMoveThePc
  intro x kk s
  rw [exec_seImm, exec_sneImm]
  exact ⟨decodeWord_seImm x kk, decodeWord_sneImm x kk, onlyPcMoves_completed_skipIf_eq (s.getV x) kk s,
    onlyPcMoves_completed_skipIf_ne (s.getV x) kk s⟩

/-- Settles O20. -/
theorem skipsOnRegistersMoveThePc : Obligations.SkipsOnRegistersMoveThePc := by
  unfold Obligations.SkipsOnRegistersMoveThePc
  intro x y n s
  rw [exec_seReg, exec_sneReg]
  exact ⟨decodeWord_seReg x y n, decodeWord_sneReg x y n, onlyPcMoves_completed_skipIf_eq (s.getV x) (s.getV y) s,
    onlyPcMoves_completed_skipIf_ne (s.getV x) (s.getV y) s⟩

/-- Settles O22: each of the four forms means the bare advance. -/
theorem noOpsOnlyAdvance : Obligations.NoOpsOnlyAdvance := by
  unfold Obligations.NoOpsOnlyAdvance
  refine ⟨fun nnn hcls hret => decodeWord_sys hcls hret, fun s i hi => ?_⟩
  have hexec : exec i s = completed s := by
    obtain ⟨nnn, rfl⟩ | ⟨x, y, n, rfl⟩ | ⟨x, kk, rfl⟩ | ⟨x, kk, rfl⟩ := hi
    · exact exec_sys nnn s
    · exact exec_nop8 x y n s
    · exact exec_nopE x kk s
    · exact exec_nopF x kk s
  rw [hexec]
  exact onlyPcMoves_completed_self s

end Sys2Proof.Machine
end

section
/-! Arithmetic and logic (41_alu.md): an instruction that completes with nothing but registers written. -/

namespace Sys2Proof

/-! ## Decoding -/

theorem decodeWord_ldImm (x : RegId) (kk : Byte) : decodeWord (wordXKK 6#4 x kk) = .ldImm x kk := by
  simp [decodeWord]

theorem decodeWord_addImm (x : RegId) (kk : Byte) : decodeWord (wordXKK 7#4 x kk) = .addImm x kk := by
  simp [decodeWord]

end Sys2Proof

namespace Sys2Proof.Machine

/-! ## Completing with registers written -/

/-- Where only the register file has changed before the advance, only it and the pc have changed after it (10_state.md R37). -/
theorem onlyRegisters_advance {s u : State} (hu : u = { s with v := u.v }) : OnlyRegisters s (advance u) := by
  refine ⟨?_, fun a => ?_⟩
  · rw [hu]; rfl
  · rw [hu]; rfl

theorem registersKept_advance_setV (x : RegId) (b : Byte) (s : State) : RegistersKept [x] s (advance (s.setV x b)) := by
  intro y hy
  rw [getV_advance]
  exact getV_setV_other s (List.ne_of_not_mem_cons hy) b

/-- The frame of an instruction that writes one register with no flag. -/
theorem completed_setV (x : RegId) (b : Byte) (s : State) :
    ∃ t, completed (s.setV x b) = .next t ∧ OnlyRegisters s t ∧ RegistersKept [x] s t ∧ t.getV x = b :=
  ⟨advance (s.setV x b), rfl, onlyRegisters_advance rfl, registersKept_advance_setV x b s, getV_setV_same s x b⟩

/-! ## The meanings -/

theorem exec_ldImm (x : RegId) (kk : Byte) (s : State) : exec (.ldImm x kk) s = completed (s.setV x kk) := rfl

theorem exec_addImm (x : RegId) (kk : Byte) (s : State) :
    exec (.addImm x kk) s = completed (s.setV x (s.getV x + kk)) := rfl

/-! ## The obligations -/

/-- Settles O25: both write one register and no flag; the sum of two bytes is the sum modulo 256. -/
theorem literalLoadAndAdd : Obligations.LiteralLoadAndAdd := by
  unfold Obligations.LiteralLoadAndAdd
  intro x kk s
  rw [exec_ldImm, exec_addImm]
  obtain ⟨t, hrun, hframe, hkept, hsum⟩ := completed_setV x (s.getV x + kk) s
  have hmod : (t.getV x).toNat = ((s.getV x).toNat + kk.toNat) % 256 := by
    rw [hsum]
    exact BitVec.toNat_add (s.getV x) kk
  exact ⟨decodeWord_ldImm x kk, decodeWord_addImm x kk, completed_setV x kk s, t, hrun, hframe, hkept, hmod⟩

end Sys2Proof.Machine
end

section
/-! The address register (42_index_memory.md): an instruction that completes with nothing but I written. -/

namespace Sys2Proof

/-! ## Decoding -/

theorem decodeWord_ldI (nnn : Addr12) : decodeWord (wordAddr 10#4 nnn) = .ldI nnn := by
  simp [decodeWord]

theorem decodeWord_ldF (x : RegId) : decodeWord (wordXKK 15#4 x 0x29#8) = .ldF x := by
  simp [decodeWord, decodeFamilyF]

end Sys2Proof

namespace Sys2Proof.Machine

/-! ## Completing with I written -/

/-- The frame of an instruction that writes I only. -/
theorem completed_writeI (a : Word) (s : State) :
    ∃ t, completed { s with i := a } = .next t ∧ t.i = a ∧ SameMemory s t ∧
      t = { s with i := t.i, pc := s.pc + 2#16 } :=
  ⟨advance { s with i := a }, rfl, rfl, fun _ => rfl, rfl⟩

/-- Sixteen glyphs of five bytes: the address is not reduced, and the mask keeps the low nibble (42_index_memory.md R172). -/
theorem glyphAddress_toNat (b : Byte) : (glyphAddress b).toNat = b.toNat % 16 * 5 := by
  have hnibble : (b &&& 0x0F#8).toNat = b.toNat % 16 := Nat.and_two_pow_sub_one_eq_mod b.toNat 4
  rw [glyphAddress, hnibble, BitVec.toNat_ofNat]
  omega

/-! ## The meanings -/

theorem exec_ldI (nnn : Addr12) (s : State) : exec (.ldI nnn) s = completed { s with i := nnn.setWidth 16 } := rfl

theorem exec_ldF (x : RegId) (s : State) : exec (.ldF x) s = completed { s with i := glyphAddress (s.getV x) } := rfl

/-! ## The obligations -/

/-- Settles O31: the literal is zero-extended, the glyph address is five times the low nibble. -/
theorem ldIAndLdFSetTheAddress : Obligations.LdIAndLdFSetTheAddress := by
  unfold Obligations.LdIAndLdFSetTheAddress
  intro nnn x s
  rw [exec_ldI, exec_ldF]
  obtain ⟨t, hrunI, haddr, hmemI, hframeI⟩ := completed_writeI (nnn.setWidth 16) s
  obtain ⟨u, hrunF, hglyph, hmemF, hframeF⟩ := completed_writeI (glyphAddress (s.getV x)) s
  have hliteral : t.i.toNat = nnn.toNat := by
    rw [haddr]
    exact BitVec.toNat_setWidth_of_le (by decide)
  have hnibble : u.i.toNat = (s.getV x).toNat % 16 * 5 := by
    rw [hglyph]
    exact glyphAddress_toNat (s.getV x)
  exact ⟨decodeWord_ldI nnn, decodeWord_ldF x, ⟨t, hrunI, hliteral, hmemI, hframeI⟩, u, hrunF, hnibble, hmemF, hframeF⟩

end Sys2Proof.Machine
end

section
/-! The display (43_display.md): clearing the framebuffer. -/

namespace Sys2Proof

/-- Within family 0 it is the whole word that makes CLS (30_encoding.md R108). -/
theorem decodeWord_cls : decodeWord 0x00E0#16 = .cls := by decide

end Sys2Proof

namespace Sys2Proof.Machine

theorem exec_cls (s : State) : exec .cls s = completed (fbClear s) := rfl

/-- Settles O37: clearing leaves every position false, and neither it nor the advance touches memory. -/
theorem clsClearsEveryPixel : Obligations.ClsClearsEveryPixel := by
  unfold Obligations.ClsClearsEveryPixel
  refine ⟨decodeWord_cls, fun s => ⟨advance (fbClear s), exec_cls s, fun pos _ => ?pixels, fun a => ?memory, rfl⟩⟩
  case pixels =>
    rw [pixel_advance]
    exact pixel_fbClear s pos
  case memory =>
    rw [byteAt_advance]
    exact byteAt_congr (fbClear_mem s) (fbClear_params s) a

end Sys2Proof.Machine
end

section
/-! The delay timer (44_timers_input.md): an instruction that completes with nothing but DT written. -/

namespace Sys2Proof

/-! ## Decoding -/

theorem decodeWord_ldVxDt (x : RegId) : decodeWord (wordXKK 15#4 x 0x07#8) = .ldVxDt x := by
  simp [decodeWord, decodeFamilyF]

theorem decodeWord_ldDtVx (x : RegId) : decodeWord (wordXKK 15#4 x 0x15#8) = .ldDtVx x := by
  simp [decodeWord, decodeFamilyF]

end Sys2Proof

namespace Sys2Proof.Machine

/-! ## Completing with DT written -/

/-- The frame of an instruction that writes the delay timer only. -/
theorem completed_writeDt (b : Byte) (s : State) :
    ∃ t, completed { s with dt := b } = .next t ∧ t.dt = b ∧ SameMemory s t ∧
      t = { s with dt := t.dt, pc := s.pc + 2#16 } :=
  ⟨advance { s with dt := b }, rfl, rfl, fun _ => rfl, rfl⟩

/-! ## The meanings -/

theorem exec_ldVxDt (x : RegId) (s : State) : exec (.ldVxDt x) s = completed (s.setV x s.dt) := rfl

theorem exec_ldDtVx (x : RegId) (s : State) : exec (.ldDtVx x) s = completed { s with dt := s.getV x } := rfl

/-! ## The obligations -/

/-- Settles O42: the read writes one register and no flag, the write touches DT alone. -/
theorem delayTimerReadAndWrite : Obligations.DelayTimerReadAndWrite := by
  unfold Obligations.DelayTimerReadAndWrite
  intro x s
  rw [exec_ldVxDt, exec_ldDtVx]
  exact ⟨decodeWord_ldVxDt x, decodeWord_ldDtVx x, completed_setV x s.dt s, completed_writeDt (s.getV x) s⟩

end Sys2Proof.Machine
end

section
/-! The key wait (60_exceptions.md R234, R238): a step leaves the machine as it was, or completes the wait. -/

namespace Sys2Proof.Machine

/-- In a key wait one transition is enabled: neither an instruction nor a tick can fire (60_exceptions.md R234). -/
theorem step_waitKey {s : State} {x : RegId} (hs : s.status = .waitKey x) : step s = .next (waitStep x s) := by
  simp only [step, hs]

/-- An arriving key writes the waiting register alone (44_timers_input.md R204). -/
theorem registersKept_keyArrive (x : RegId) (k : Nibble) (s : State) : RegistersKept [x] s (keyArrive x k s) :=
  registersKept_advance_setV x (k.setWidth 8) s

/-- Settles O10: with no key only the input list moves on; an arriving key completes the wait and touches nothing else. -/
theorem keyWaitFreezesTheMachine : Obligations.KeyWaitFreezesTheMachine := by
  unfold Obligations.KeyWaitFreezesTheMachine
  intro s t x hs hstep
  obtain rfl : waitStep x s = t := by
    rw [step_waitKey hs] at hstep
    injection hstep
  obtain ⟨-, hidle⟩ | ⟨k, -, harrive⟩ := waitStep_cases x s
  · rw [hidle]
    exact ⟨rfl, rfl, rfl, rfl, rfl, rfl, fun _ => rfl, fun _ _ => rfl, .inl rfl⟩
  · rw [harrive]
    exact ⟨rfl, rfl, rfl, rfl, rfl, rfl, fun _ => rfl, registersKept_keyArrive x k s, .inr rfl⟩

end Sys2Proof.Machine
end

section
/-! The decoder and the encoder (30_encoding.md): each gives back what the other was given. -/

namespace Sys2Proof

/-! ## The families with sub-codes -/

theorem decodeWord_family8 {w : Word} (h : fieldOp w = 0x8#4) : decodeWord w = decodeFamily8 w := by
  simp [decodeWord, h]

theorem decodeWord_familyE {w : Word} (h : fieldOp w = 0xE#4) : decodeWord w = decodeFamilyE w := by
  simp [decodeWord, h]

theorem decodeWord_familyF {w : Word} (h : fieldOp w = 0xF#4) : decodeWord w = decodeFamilyF w := by
  simp [decodeWord, h]

/-- A sub-opcode that selects no operation falls through to the no-op (30_encoding.md R105). -/
theorem decodeWord_nop8 (x y : RegId) {n : Nibble} (h : wfNop8 n = true) :
    decodeWord (wordXYN 8#4 x y n) = .nop8 x y n := by
  rw [decodeWord_family8 (fieldOp_wordXYN _ x y n), decodeFamily8, fieldN_wordXYN, fieldX_wordXYN, fieldY_wordXYN]
  split
  case h_10 => rfl
  all_goals exact absurd h (by decide)

theorem decodeWord_nopE (x : RegId) {kk : Byte} (h : wfNopE kk = true) :
    decodeWord (wordXKK 14#4 x kk) = .nopE x kk := by
  rw [decodeWord_familyE (fieldOp_wordXKK _ x kk), decodeFamilyE, fieldKK_wordXKK, fieldX_wordXKK]
  split
  case h_3 => rfl
  all_goals exact absurd h (by decide)

theorem decodeWord_nopF (x : RegId) {kk : Byte} (h : wfNopF kk = true) :
    decodeWord (wordXKK 15#4 x kk) = .nopF x kk := by
  rw [decodeWord_familyF (fieldOp_wordXKK _ x kk), decodeFamilyF, fieldKK_wordXKK, fieldX_wordXKK]
  split
  case h_10 => rfl
  all_goals exact absurd h (by decide)

/-! ## Decoding an encoded instruction -/

/-- Outside families 0, 8, E and F the family alone selects; in these the sub-code does, and a well-formed no-op has none of
the sub-codes that select an operation (30_encoding.md R104, R105). -/
theorem decodeWord_encode {i : Instr} (h : i.wf = true) : decodeWord (encode i) = i := by
  cases i with
  | cls => exact decodeWord_cls
  | ret => decide
  | sys nnn =>
    simp only [Instr.wf, wfSys, Bool.and_eq_true, bne_iff_ne] at h
    exact decodeWord_sys h.1 h.2
  | nop8 x y n => exact decodeWord_nop8 x y h
  | nopE x kk => exact decodeWord_nopE x h
  | nopF x kk => exact decodeWord_nopF x h
  | ldReg x y | or x y | and x y | xor x y | addReg x y | sub x y | shr x y | subn x y | shl x y =>
    rw [encode, decodeWord_family8 (fieldOp_wordXYN ..)]
    simp [decodeFamily8]
  | skp x | sknp x =>
    rw [encode, decodeWord_familyE (fieldOp_wordXKK ..)]
    simp [decodeFamilyE]
  | ldVxDt x | ldDtVx x | ldVxK x | ldStVx x | addI x | ldF x | ldB x | ldStore x | ldLoad x =>
    rw [encode, decodeWord_familyF (fieldOp_wordXKK ..)]
    simp [decodeFamilyF]
  | jp nnn | call nnn | ldI nnn | jpV0 nnn => simp [encode, decodeWord]
  | seImm x kk | sneImm x kk | ldImm x kk | addImm x kk | rnd x kk => simp [encode, decodeWord]
  | seReg x y n | sneReg x y n | drw x y n => simp [encode, decodeWord]

/-- Settles O12: the bytes join to the word again, high byte first. -/
theorem decodeOfEncodeIsTheInstruction : Obligations.DecodeOfEncodeIsTheInstruction := by
  unfold Obligations.DecodeOfEncodeIsTheInstruction
  intro i rest hwf
  have hword : decodeWord (encode i) = i := decodeWord_encode hwf
  have hbytes : decode (encodeBytes i ++ rest) = .ok (decodeWord (encode i), rest) := by
    rw [encodeBytes, List.cons_append, List.cons_append, List.nil_append, decode_cons, joinBytes_bytes]
  exact ⟨hword, by rw [hbytes, hword]⟩

/-! ## Encoding a decoded word -/

/-- `i` is a well-formed instruction and `w` its word. -/
def RoundTrips (w : Word) (i : Instr) : Prop := i.wf = true ∧ encode i = w

theorem roundTrips_family0 {w : Word} (h : fieldOp w = 0x0#4) : RoundTrips w (decodeFamily0 w) := by
  have hw : wordAddr 0x0#4 (fieldNNN w) = w := h ▸ wordAddr_fields w
  unfold decodeFamily0
  split
  · next hcls => exact ⟨rfl, hcls.symm⟩
  · next hcls =>
    split
    · next hret => exact ⟨rfl, hret.symm⟩
    · next hret =>
      refine ⟨?_, hw⟩
      simp only [Instr.wf, wfSys, Bool.and_eq_true, bne_iff_ne]
      exact ⟨fun e => hcls (by rw [← hw, e]; rfl), fun e => hret (by rw [← hw, e]; rfl)⟩

/-- The sub-opcodes the check admits are those that select no operation (30_encoding.md R105). -/
theorem wfNop8_iff (n : Nibble) :
    wfNop8 n = true ↔ n ∉ [0x0#4, 0x1#4, 0x2#4, 0x3#4, 0x4#4, 0x5#4, 0x6#4, 0x7#4, 0xE#4] := by
  revert n; decide

theorem roundTrips_family8 {w : Word} (h : fieldOp w = 0x8#4) : RoundTrips w (decodeFamily8 w) := by
  have hw : wordXYN 0x8#4 (fieldX w) (fieldY w) (fieldN w) = w := h ▸ wordXYN_fields w
  unfold decodeFamily8
  split
  case h_10 => exact ⟨(wfNop8_iff _).mpr (by simp_all), hw⟩
  all_goals next hn => exact ⟨rfl, by rw [hn] at hw; exact hw⟩

theorem roundTrips_familyE {w : Word} (h : fieldOp w = 0xE#4) : RoundTrips w (decodeFamilyE w) := by
  have hw : wordXKK 0xE#4 (fieldX w) (fieldKK w) = w := h ▸ wordXKK_fields w
  unfold decodeFamilyE
  split
  case h_3 h1 h2 => exact ⟨by simpa [Instr.wf, wfNopE] using ⟨h1, h2⟩, hw⟩
  all_goals next hkk => exact ⟨rfl, by rw [hkk] at hw; exact hw⟩

theorem roundTrips_familyF {w : Word} (h : fieldOp w = 0xF#4) : RoundTrips w (decodeFamilyF w) := by
  have hw : wordXKK 0xF#4 (fieldX w) (fieldKK w) = w := h ▸ wordXKK_fields w
  unfold decodeFamilyF
  split
  case h_10 => exact ⟨by simp_all [Instr.wf, wfNopF], hw⟩
  all_goals next hkk => exact ⟨rfl, by rw [hkk] at hw; exact hw⟩

/-- The default arm of the decoder is family F: the fifteen arms before it are the other families. -/
theorem fieldOp_eq_familyF {op : Nibble} (h : op ∉ [0x0#4, 0x1#4, 0x2#4, 0x3#4, 0x4#4, 0x5#4, 0x6#4, 0x7#4, 0x8#4, 0x9#4,
    0xA#4, 0xB#4, 0xC#4, 0xD#4, 0xE#4]) : op = 0xF#4 := by
  revert op; decide

/-- No bit of a word is lost: each family keeps the fields of its own format (30_encoding.md R101). -/
theorem roundTrips_decodeWord (w : Word) : RoundTrips w (decodeWord w) := by
  have haddr := wordAddr_fields w
  have hxkk := wordXKK_fields w
  have hxyn := wordXYN_fields w
  unfold decodeWord
  split
  case h_1 hop => exact roundTrips_family0 hop
  case h_9 hop => exact roundTrips_family8 hop
  case h_15 hop => exact roundTrips_familyE hop
  case h_16 => exact roundTrips_familyF (fieldOp_eq_familyF (by simp_all))
  case h_2 hop | h_3 hop | h_11 hop | h_12 hop => exact ⟨rfl, by rw [hop] at haddr; exact haddr⟩
  case h_4 hop | h_5 hop | h_7 hop | h_8 hop | h_13 hop => exact ⟨rfl, by rw [hop] at hxkk; exact hxkk⟩
  case h_6 hop | h_10 hop | h_14 hop => exact ⟨rfl, by rw [hop] at hxyn; exact hxyn⟩

/-- Settles O13. -/
theorem encodeOfDecodeIsTheWord : Obligations.EncodeOfDecodeIsTheWord := by
  unfold Obligations.EncodeOfDecodeIsTheWord
  exact roundTrips_decodeWord

/-- Settles O15. -/
theorem wordsWrittenOutDecode : Obligations.WordsWrittenOutDecode := by
  unfold Obligations.WordsWrittenOutDecode
  decide

end Sys2Proof
end

section
/-! The opcode map (30_encoding.md R113): read by priority, mask and match it selects the row of the decoded instruction. -/

namespace Sys2Proof

/-! ## What a matching row says of the word -/

/-- A field that the row's mask keeps whole is the pattern's. -/
theorem field_of_matches {r : OpcodeRow} {w : Word} (h : r.matches w = true) {start len : Nat}
    (hmask : r.mask.extractLsb' start len = BitVec.allOnes len) :
    w.extractLsb' start len = r.pattern.extractLsb' start len := by
  have hpattern : w &&& r.mask = r.pattern := eq_of_beq h
  rw [← hpattern, BitVec.extractLsb'_and, hmask, BitVec.and_allOnes]

theorem fieldOp_of_matches {r : OpcodeRow} {w : Word} (h : r.matches w = true) (hmask : fieldOp r.mask = 0xF#4) :
    fieldOp w = fieldOp r.pattern := field_of_matches h hmask

theorem fieldN_of_matches {r : OpcodeRow} {w : Word} (h : r.matches w = true) (hmask : fieldN r.mask = 0xF#4) :
    fieldN w = fieldN r.pattern := field_of_matches h hmask

theorem fieldKK_of_matches {r : OpcodeRow} {w : Word} (h : r.matches w = true) (hmask : fieldKK r.mask = 0xFF#8) :
    fieldKK w = fieldKK r.pattern := field_of_matches h hmask

/-! ## Which fields the decoded row depends on (30_encoding.md R104) -/

/-- Outside families 0, 8, E and F the family alone selects the row. -/
theorem mnemonic_congr_family {w p : Word} (hop : fieldOp w = fieldOp p)
    (hfam : fieldOp p ∉ [0x0#4, 0x8#4, 0xE#4, 0xF#4]) : (decodeWord w).mnemonic = (decodeWord p).mnemonic := by
  unfold decodeWord
  rw [hop]
  split
  case h_1 h | h_9 h | h_15 h => exact absurd (by simp [h]) hfam
  case h_16 => exact absurd (by rw [fieldOp_eq_familyF (op := fieldOp p) (by simp_all)]; decide) hfam
  all_goals rfl

/-- In family 8 the low nibble selects. -/
theorem mnemonic_congr_family8 {w p : Word} (hw : fieldOp w = 0x8#4) (hp : fieldOp p = 0x8#4) (hn : fieldN w = fieldN p) :
    (decodeWord w).mnemonic = (decodeWord p).mnemonic := by
  rw [decodeWord_family8 hw, decodeWord_family8 hp, decodeFamily8, decodeFamily8, hn]
  split <;> rfl

/-- In family E the low byte selects. -/
theorem mnemonic_congr_familyE {w p : Word} (hw : fieldOp w = 0xE#4) (hp : fieldOp p = 0xE#4) (hkk : fieldKK w = fieldKK p) :
    (decodeWord w).mnemonic = (decodeWord p).mnemonic := by
  rw [decodeWord_familyE hw, decodeWord_familyE hp, decodeFamilyE, decodeFamilyE, hkk]
  split <;> rfl

/-- In family F the low byte selects. -/
theorem mnemonic_congr_familyF {w p : Word} (hw : fieldOp w = 0xF#4) (hp : fieldOp p = 0xF#4) (hkk : fieldKK w = fieldKK p) :
    (decodeWord w).mnemonic = (decodeWord p).mnemonic := by
  rw [decodeWord_familyF hw, decodeWord_familyF hp, decodeFamilyF, decodeFamilyF, hkk]
  split <;> rfl

/-! ## The rows of the map -/

/-- Each row of priority 0 names the instruction of its own pattern. -/
theorem mnemonic_pattern : ∀ r ∈ opcodeMap, r.priority = 0 → (decodeWord r.pattern).mnemonic = r.mnemonic := by decide

/-- The mask of a row of priority 0 keeps the fields that select within its family. -/
theorem mask_keeps_selector : ∀ r ∈ opcodeMap, r.priority = 0 →
    r.mask = 0xFFFF#16 ∨
    fieldOp r.mask = 0xF#4 ∧
      (fieldOp r.pattern ∉ [0x0#4, 0x8#4, 0xE#4, 0xF#4] ∨
       fieldOp r.pattern = 0x8#4 ∧ fieldN r.mask = 0xF#4 ∨
       fieldOp r.pattern = 0xE#4 ∧ fieldKK r.mask = 0xFF#8 ∨
       fieldOp r.pattern = 0xF#4 ∧ fieldKK r.mask = 0xFF#8) := by decide

theorem priority_le_one : ∀ r ∈ opcodeMap, r.priority = 0 ∨ r.priority = 1 := by decide

/-- The rows of priority 1 are told apart by the family, which their masks keep. -/
theorem mnemonic_of_priority_one : ∀ r ∈ opcodeMap, ∀ r' ∈ opcodeMap, r.priority = 1 → r'.priority = 1 →
    fieldOp r.mask = 0xF#4 ∧ (fieldOp r.pattern = fieldOp r'.pattern → r.mnemonic = r'.mnemonic) := by decide

/-- A row of priority 0 matches only words that decode to its instruction. -/
theorem mnemonic_of_matches {r : OpcodeRow} {w : Word} (hr : r ∈ opcodeMap) (h0 : r.priority = 0) (h : r.matches w = true) :
    (decodeWord w).mnemonic = r.mnemonic := by
  rw [← mnemonic_pattern r hr h0]
  obtain hall | ⟨hmask, hfam⟩ := mask_keeps_selector r hr h0
  · have hw : w = r.pattern := by
      have hpattern : w &&& r.mask = r.pattern := eq_of_beq h
      rwa [hall, show (0xFFFF#16 : Word) = BitVec.allOnes 16 from rfl, BitVec.and_allOnes] at hpattern
    rw [hw]
  · have hop := fieldOp_of_matches h hmask
    obtain hfam | ⟨hp, hn⟩ | ⟨hp, hkk⟩ | ⟨hp, hkk⟩ := hfam
    · exact mnemonic_congr_family hop hfam
    · exact mnemonic_congr_family8 (hop.trans hp) hp (fieldN_of_matches h hn)
    · exact mnemonic_congr_familyE (hop.trans hp) hp (fieldKK_of_matches h hkk)
    · exact mnemonic_congr_familyF (hop.trans hp) hp (fieldKK_of_matches h hkk)

theorem matches_own_row (i : Instr) : Laws.RowMatch.Statement i := by
  cases i with
  | cls => exact Laws.RowMatch.cls
  | ret => exact Laws.RowMatch.ret
  | jp nnn => exact Laws.RowMatch.jp nnn
  | call nnn => exact Laws.RowMatch.call nnn
  | seImm x kk => exact Laws.RowMatch.seImm x kk
  | sneImm x kk => exact Laws.RowMatch.sneImm x kk
  | seReg x y n => exact Laws.RowMatch.seReg x y n
  | sneReg x y n => exact Laws.RowMatch.sneReg x y n
  | ldImm x kk => exact Laws.RowMatch.ldImm x kk
  | addImm x kk => exact Laws.RowMatch.addImm x kk
  | ldReg x y => exact Laws.RowMatch.ldReg x y
  | or x y => exact Laws.RowMatch.or x y
  | and x y => exact Laws.RowMatch.and x y
  | xor x y => exact Laws.RowMatch.xor x y
  | addReg x y => exact Laws.RowMatch.addReg x y
  | sub x y => exact Laws.RowMatch.sub x y
  | shr x y => exact Laws.RowMatch.shr x y
  | subn x y => exact Laws.RowMatch.subn x y
  | shl x y => exact Laws.RowMatch.shl x y
  | ldI nnn => exact Laws.RowMatch.ldI nnn
  | jpV0 nnn => exact Laws.RowMatch.jpV0 nnn
  | rnd x kk => exact Laws.RowMatch.rnd x kk
  | drw x y n => exact Laws.RowMatch.drw x y n
  | skp x => exact Laws.RowMatch.skp x
  | sknp x => exact Laws.RowMatch.sknp x
  | ldVxDt x => exact Laws.RowMatch.ldVxDt x
  | ldDtVx x => exact Laws.RowMatch.ldDtVx x
  | ldVxK x => exact Laws.RowMatch.ldVxK x
  | ldStVx x => exact Laws.RowMatch.ldStVx x
  | addI x => exact Laws.RowMatch.addI x
  | ldF x => exact Laws.RowMatch.ldF x
  | ldB x => exact Laws.RowMatch.ldB x
  | ldStore x => exact Laws.RowMatch.ldStore x
  | ldLoad x => exact Laws.RowMatch.ldLoad x
  | sys nnn => exact Laws.RowMatch.sys nnn
  | nop8 x y n => exact Laws.RowMatch.nop8 x y n
  | nopE x kk => exact Laws.RowMatch.nopE x kk
  | nopF x kk => exact Laws.RowMatch.nopF x kk

/-- Every word matches the row of its own instruction. -/
theorem exists_row_of_decodeWord (w : Word) :
    ∃ r ∈ opcodeMap, r.mnemonic = (decodeWord w).mnemonic ∧ r.matches w = true := by
  obtain ⟨hwf, hw⟩ := roundTrips_decodeWord w
  have hrow := matches_own_row _ hwf
  rwa [hw] at hrow

/-! ## The first matching row of a priority -/

theorem of_find_priority {p : Nat} {w : Word} {r : OpcodeRow}
    (h : opcodeMap.find? (fun r => r.priority == p && r.matches w) = some r) :
    r ∈ opcodeMap ∧ r.priority = p ∧ r.matches w = true :=
  ⟨List.mem_of_find?_eq_some h, by simpa using List.find?_some h⟩

theorem priority_ne_of_find_none {p : Nat} {w : Word} {r : OpcodeRow}
    (h : opcodeMap.find? (fun r => r.priority == p && r.matches w) = none) (hr : r ∈ opcodeMap) (hmatch : r.matches w = true) :
    r.priority ≠ p := fun hp => by
  simpa [hp, hmatch] using List.find?_eq_none.mp h r hr

/-- Settles O14: where a row of priority 0 matches, the word decodes to its instruction; where none does, the word's own row has
priority 1, and of these one alone matches. -/
theorem opcodeMapSelectsTheDecodedRow : Obligations.OpcodeMapSelectsTheDecodedRow := by
  unfold Obligations.OpcodeMapSelectsTheDecodedRow
  intro w
  unfold selectedRow
  cases hfirst : opcodeMap.find? fun r => r.priority == 0 && r.matches w with
  | some r =>
    obtain ⟨hr, h0, hmatch⟩ := of_find_priority hfirst
    rw [Option.some_or, Option.map_some, mnemonic_of_matches hr h0 hmatch]
  | none =>
    obtain ⟨own, hown, hname, hmatch⟩ := exists_row_of_decodeWord w
    have hown1 : own.priority = 1 :=
      (priority_le_one own hown).resolve_left (priority_ne_of_find_none hfirst hown hmatch)
    rw [Option.none_or]
    cases hsecond : opcodeMap.find? fun r => r.priority == 1 && r.matches w with
    | none => exact absurd hown1 (priority_ne_of_find_none hsecond hown hmatch)
    | some r =>
      obtain ⟨hr, h1, hmatch'⟩ := of_find_priority hsecond
      obtain ⟨hmask', -⟩ := mnemonic_of_priority_one r hr own hown h1 hown1
      obtain ⟨hmask, hsame⟩ := mnemonic_of_priority_one own hown r hr hown1 h1
      have hfamily : fieldOp own.pattern = fieldOp r.pattern :=
        (fieldOp_of_matches hmatch hmask).symm.trans (fieldOp_of_matches hmatch' hmask')
      rw [Option.map_some, ← hname, hsame hfamily]

end Sys2Proof
end

section
/-! The meanings: `exec` at each instruction, as the shared operations it is made of. -/

namespace Sys2Proof.Machine

theorem exec_ret (s : State) : exec .ret s = andThen (pop s) fun p => completed { p.2 with pc := p.1 } := rfl

theorem exec_call (nnn : Addr12) (s : State) :
    exec (.call nnn) s = andThen (push s.pc s) fun s' => completed (jump nnn.toNat s') := rfl

theorem exec_jpV0 (nnn : Addr12) (s : State) : exec (.jpV0 nnn) s = completed (jump (jumpV0Target nnn s) s) := rfl

theorem exec_ldReg (x y : RegId) (s : State) : exec (.ldReg x y) s = completed (s.setV x (s.getV y)) := rfl

theorem exec_or (x y : RegId) (s : State) : exec (.or x y) s = completed (s.setV x (s.getV x ||| s.getV y)) := rfl

theorem exec_and (x y : RegId) (s : State) : exec (.and x y) s = completed (s.setV x (s.getV x &&& s.getV y)) := rfl

theorem exec_xor (x y : RegId) (s : State) : exec (.xor x y) s = completed (s.setV x (s.getV x ^^^ s.getV y)) := rfl

theorem exec_addReg (x y : RegId) (s : State) :
    exec (.addReg x y) s =
      completed (setResultFlag x (s.getV x + s.getV y) (carryFlag (s.getV x) (s.getV y)) s) := rfl

theorem exec_sub (x y : RegId) (s : State) :
    exec (.sub x y) s =
      completed (setResultFlag x (s.getV x - s.getV y) (noBorrowFlag (s.getV x) (s.getV y)) s) := rfl

theorem exec_subn (x y : RegId) (s : State) :
    exec (.subn x y) s =
      completed (setResultFlag x (s.getV y - s.getV x) (noBorrowFlag (s.getV y) (s.getV x)) s) := rfl

theorem exec_shr (x y : RegId) (s : State) :
    exec (.shr x y) s = completed (setResultFlag x (s.getV x >>> 1) (shiftRightFlag (s.getV x)) s) := rfl

theorem exec_shl (x y : RegId) (s : State) :
    exec (.shl x y) s =
      completed (setResultFlag x (s.getV x <<< 1) (shiftLeftFlag s.params.shlFlagMode (s.getV x)) s) := rfl

theorem exec_rnd (x : RegId) (kk : Byte) (s : State) :
    exec (.rnd x kk) s = completed ((randomDraw s).2.setV x ((randomDraw s).1 &&& kk)) := rfl

theorem exec_addI (x : RegId) (s : State) :
    exec (.addI x) s = completed { s with i := s.i + (s.getV x).setWidth 16 } := rfl

theorem exec_ldStVx (x : RegId) (s : State) : exec (.ldStVx x) s = completed { s with st := s.getV x } := rfl

theorem exec_ldVxK (x : RegId) (s : State) : exec (.ldVxK x) s = .next { s with status := .waitKey x } := rfl

theorem exec_skp (x : RegId) (s : State) :
    exec (.skp x) s =
      andThen (keyCheck (s.getV x) s) fun s' => completed (skipIf (keyPoll s').1 (keyPoll s').2) := rfl

theorem exec_sknp (x : RegId) (s : State) :
    exec (.sknp x) s =
      andThen (keyCheck (s.getV x) s) fun s' => completed (skipIf (!(keyPoll s').1) (keyPoll s').2) := rfl

theorem exec_ldB (x : RegId) (s : State) :
    exec (.ldB x) s = andThen (storeBytes (effectiveAddress s 0) (decimalDigits (s.getV x)) s) completed := rfl

theorem exec_ldStore (x : RegId) (s : State) :
    exec (.ldStore x) s = andThen (storeBytes (effectiveAddress s 0) (registersUpTo x s) s) completed := rfl

theorem exec_ldLoad (x : RegId) (s : State) :
    exec (.ldLoad x) s = andThen (loadRegs (effectiveAddress s 0) (x.toNat + 1) 0 s) completed := rfl

theorem exec_drw (x y : RegId) (n : Nibble) (s : State) :
    exec (.drw x y n) s =
      andThen (drawRows (s.getV x) (s.getV y) (effectiveAddress s 0) n.toNat 0 (s.setV vf 0#8)) completed := rfl

end Sys2Proof.Machine
end

section
/-! Calls and returns (40_control_flow.md): what they push and pop, where they land, and when they fault. -/

namespace Sys2Proof

/-! ## Decoding -/

theorem decodeWord_jpV0 (nnn : Addr12) : decodeWord (wordAddr 11#4 nnn) = .jpV0 nnn := by
  simp [decodeWord]

end Sys2Proof

namespace Sys2Proof.Machine

/-! ## CALL and RET with room on the stack, and without -/

theorem exec_call_ok {s : State} (h : s.stack.length < 16) (nnn : Addr12) :
    exec (.call nnn) s = completed (jump nnn.toNat { s with stack := s.stack ++ [s.pc] }) := by
  rw [exec_call, push_ok h, andThen_ok]

theorem exec_call_fault {s : State} (h : 16 ≤ s.stack.length) (nnn : Addr12) :
    exec (.call nnn) s = .next (raiseFatal .stackOverflow .pcOnly s) := by
  rw [exec_call, push_fault h, andThen_error]

theorem exec_ret_ok {s : State} {rest : List Word} {r : Word} (h : s.stack = rest ++ [r]) :
    exec .ret s = completed { s with stack := rest, pc := r } := by
  rw [exec_ret, pop_ok h, andThen_ok]

theorem exec_ret_fault {s : State} (h : s.stack = []) : exec .ret s = .next (raiseFatal .stackUnderflow .pcOnly s) := by
  rw [exec_ret, pop_fault h, andThen_error]

/-- The advance lands on the target of the jump before it (40_control_flow.md R130). -/
theorem advance_jump_pc (target : Nat) (s : State) : (advance (jump target s)).pc = BitVec.ofNat 16 target := by
  rw [advance_pc, jump_pc, BitVec.sub_add_cancel]

/-- A 12-bit literal is not reduced to 16 bits. -/
theorem ofNat_addr_toNat (nnn : Addr12) : (BitVec.ofNat 16 nnn.toNat).toNat = nnn.toNat := by
  rw [BitVec.toNat_ofNat]
  omega

/-! ## The obligations -/

/-- Settles O16. -/
theorem retReturnsOrUnderflows : Obligations.RetReturnsOrUnderflows := by
  unfold Obligations.RetReturnsOrUnderflows
  refine fun s => ⟨fun rest r h => ?_, fun h => ⟨_, exec_ret_fault h, rfl⟩⟩
  exact ⟨_, exec_ret_ok h, BitVec.toNat_add r 2#16, rfl, fun _ => rfl, rfl⟩

/-- Settles O18. -/
theorem callPushesItsOwnAddressOrOverflows : Obligations.CallPushesItsOwnAddressOrOverflows := by
  unfold Obligations.CallPushesItsOwnAddressOrOverflows
  refine fun nnn s => ⟨fun h => ?_, fun h => ⟨_, exec_call_fault h nnn, rfl⟩⟩
  refine ⟨_, exec_call_ok h nnn, ?_, rfl, fun _ => rfl, rfl⟩
  rw [advance_jump_pc, ofNat_addr_toNat]

/-- Settles O21: the sum of a 12-bit literal and a byte is below 2^16, so it is not reduced. -/
theorem jpV0LandsOnTheSum : Obligations.JpV0LandsOnTheSum := by
  unfold Obligations.JpV0LandsOnTheSum
  intro nnn s
  obtain ⟨t, hrun, hframe, hmem, hpc⟩ := onlyPcMoves_completed_jump (jumpV0Target nnn s) s
  have hfits : jumpV0Target nnn s % 65536 = nnn.toNat + (s.getV 0#4).toNat := by
    unfold jumpV0Target
    omega
  exact ⟨decodeWord_jpV0 nnn, t, by rw [exec_jpV0, hrun], hpc.trans hfits, hmem, hframe⟩

/-- Settles O23: the entry that RET pops is the one that CALL pushed, the CALL's own address. -/
theorem returnComesBackAfterTheCall : Obligations.ReturnComesBackAfterTheCall := by
  unfold Obligations.ReturnComesBackAfterTheCall
  intro nnn s t u hroom hcall hstack
  have hpushed : u.stack = s.stack ++ [s.pc] := by
    rw [exec_call_ok hroom] at hcall
    cases hcall
    exact hstack
  exact ⟨_, exec_ret_ok hpushed, BitVec.toNat_add s.pc 2#16, rfl⟩

end Sys2Proof.Machine
end

section
/-! Arithmetic and logic (41_alu.md): the operations of family 8 and the random draw. -/

namespace Sys2Proof.Machine

/-! ## The values -/

theorem flagOf_toNat (c : Bool) : (flagOf c).toNat = if c then 1 else 0 := by
  cases c <;> rfl

theorem carryFlag_toNat (a b : Byte) : (carryFlag a b).toNat = if a.toNat + b.toNat > 255 then 1 else 0 := by
  simp [carryFlag, flagOf_toNat]

theorem noBorrowFlag_toNat (a b : Byte) : (noBorrowFlag a b).toNat = if a.toNat < b.toNat then 0 else 1 := by
  rw [noBorrowFlag, flagOf_toNat]
  by_cases h : a.toNat < b.toNat <;> simp [h]

/-- The difference of two bytes is the difference of their values modulo 256. -/
theorem toNat_sub_eq_emod (a b : Byte) : ((a - b).toNat : Int) = (a.toNat - b.toNat : Int) % 256 := by
  rw [BitVec.toNat_sub]
  omega

theorem shiftRightFlag_toNat (a : Byte) : (shiftRightFlag a).toNat = a.toNat % 2 := by
  rw [shiftRightFlag, flagOf_toNat, ← BitVec.testBit_toNat, Nat.testBit_zero]
  rcases Nat.mod_two_eq_zero_or_one a.toNat with h | h <;> simp [h]

/-- Bit 7 is the topmost bit of a byte. -/
theorem shiftLeftFlag_msb_toNat (a : Byte) : (shiftLeftFlag .msb a).toNat = a.toNat / 128 := by
  rw [shiftLeftFlag, flagOf_toNat, ← BitVec.testBit_toNat, Nat.testBit_eq_decide_div_mod_eq]
  obtain h | h : a.toNat / 128 = 0 ∨ a.toNat / 128 = 1 := by omega
  · simp [h]
  · simp [h]

/-! ## Completing with a result and its flag -/

/-- The frame of an instruction that writes a result and its flag: at VF the flag stands (decision D7). -/
theorem completed_setResultFlag (x : RegId) (r f : Byte) (s : State) :
    ∃ t, completed (setResultFlag x r f s) = .next t ∧ OnlyRegisters s t ∧ RegistersKept [x, vf] s t ∧
      (x ≠ vf → t.getV x = r) ∧ t.getV vf = f := by
  refine ⟨advance (setResultFlag x r f s), rfl, onlyRegisters_advance (setResultFlag_frame s x r f),
    fun y hy => ?_, fun hx => ?_, ?_⟩
  · obtain ⟨hyx, hyf⟩ : y ≠ x ∧ y ≠ vf := by simpa using hy
    rw [getV_advance, getV_setResultFlag, if_neg hyf, if_neg hyx]
  · rw [getV_advance, getV_setResultFlag, if_neg hx, if_pos rfl]
  · rw [getV_advance, getV_setResultFlag, if_pos rfl]

/-! ## The obligations -/

/-- Settles O26: each writes one register and no flag, bit by bit. -/
theorem copyAndLogicWriteNoFlag : Obligations.CopyAndLogicWriteNoFlag := by
  unfold Obligations.CopyAndLogicWriteNoFlag
  intro x y s
  rw [exec_ldReg, exec_or, exec_and, exec_xor]
  obtain ⟨t, hrun, hframe, hkept, hor⟩ := completed_setV x (s.getV x ||| s.getV y) s
  obtain ⟨u, hrun', hframe', hkept', hand⟩ := completed_setV x (s.getV x &&& s.getV y) s
  obtain ⟨w, hrun'', hframe'', hkept'', hxor⟩ := completed_setV x (s.getV x ^^^ s.getV y) s
  exact ⟨completed_setV x (s.getV y) s,
    ⟨t, hrun, hframe, hkept, fun b _ => by rw [hor, BitVec.getLsbD_or]⟩,
    ⟨u, hrun', hframe', hkept', fun b _ => by rw [hand, BitVec.getLsbD_and]⟩,
    ⟨w, hrun'', hframe'', hkept'', fun b _ => by rw [hxor, BitVec.getLsbD_xor]⟩⟩

/-- Settles O27. -/
theorem addRegSumsAndCarries : Obligations.AddRegSumsAndCarries := by
  unfold Obligations.AddRegSumsAndCarries
  intro x y s
  obtain ⟨t, hrun, hframe, hkept, hsum, hcarry⟩ :=
    completed_setResultFlag x (s.getV x + s.getV y) (carryFlag (s.getV x) (s.getV y)) s
  refine ⟨t, by rw [exec_addReg, hrun], hframe, hkept, fun hx => ?_, ?_⟩
  · rw [hsum hx, BitVec.toNat_add]
  · rw [hcarry, carryFlag_toNat]

/-- What O28 says of a subtraction, whichever register is the minuend. -/
theorem completed_sub (x : RegId) (a b : Byte) (s : State) :
    ∃ t, completed (setResultFlag x (a - b) (noBorrowFlag a b) s) = .next t ∧ OnlyRegisters s t ∧ RegistersKept [x, vf] s t ∧
      (x ≠ vf → ((t.getV x).toNat : Int) = (a.toNat - b.toNat : Int) % 256) ∧
      (t.getV vf).toNat = if a.toNat < b.toNat then 0 else 1 := by
  obtain ⟨t, hrun, hframe, hkept, hdiff, hflag⟩ := completed_setResultFlag x (a - b) (noBorrowFlag a b) s
  refine ⟨t, hrun, hframe, hkept, fun hx => ?_, ?_⟩
  · rw [hdiff hx, toNat_sub_eq_emod]
  · rw [hflag, noBorrowFlag_toNat]

/-- Settles O28: SUBN is SUB with the roles exchanged. -/
theorem subAndSubnBorrow : Obligations.SubAndSubnBorrow := by
  unfold Obligations.SubAndSubnBorrow
  intro x y s
  rw [exec_sub, exec_subn]
  exact ⟨completed_sub x (s.getV x) (s.getV y) s, completed_sub x (s.getV y) (s.getV x) s⟩

/-- Settles O29. -/
theorem shiftsInPlaceIgnoreY : Obligations.ShiftsInPlaceIgnoreY := by
  unfold Obligations.ShiftsInPlaceIgnoreY
  intro x y s
  rw [exec_shr, exec_shl]
  obtain ⟨t, hrun, hframe, hkept, hhalf, hbit⟩ := completed_setResultFlag x (s.getV x >>> 1) (shiftRightFlag (s.getV x)) s
  obtain ⟨u, hrun', hframe', hkept', hdouble, hflag⟩ :=
    completed_setResultFlag x (s.getV x <<< 1) (shiftLeftFlag s.params.shlFlagMode (s.getV x)) s
  refine ⟨⟨t, hrun, hframe, hkept, fun hx => ?_, ?_⟩, u, hrun', hframe', hkept', fun hx => ?_, fun hzero => ?_, fun hmsb => ?_⟩
  · rw [hhalf hx, BitVec.toNat_ushiftRight, Nat.shiftRight_eq_div_pow, Nat.pow_one]
  · rw [hbit, shiftRightFlag_toNat]
  · rw [hdouble hx, BitVec.toNat_shiftLeft, Nat.shiftLeft_eq, Nat.pow_one]
  · rw [hflag, hzero]
    rfl
  · rw [hflag, hmsb, shiftLeftFlag_msb_toNat]

/-- Settles O30: the byte is the next draw of the input stream. -/
theorem rndMasksADraw : Obligations.RndMasksADraw := by
  unfold Obligations.RndMasksADraw
  intro x kk s
  have hv : (advance ((randomDraw s).2.setV x ((randomDraw s).1 &&& kk))).getV x = (randomDraw s).1 &&& kk := by
    rw [getV_advance, getV_setV_same]
  refine ⟨_, (randomDraw s).1, exec_rnd x kk s, hv, ?_, fun _ => rfl, rfl, fun b _ hclear => ?_, fun d ds hrng => ?_⟩
  · exact registersKept_advance_setV x _ (randomDraw s).2
  · rw [hv, BitVec.getLsbD_and, hclear, Bool.and_false]
  · constructor
    · simp [randomDraw, Inputs.nextRandom, hrng]
    · simp [randomDraw, Inputs.dropRandom, hrng]

end Sys2Proof.Machine
end

section
/-! Transfers between registers and memory (42_index_memory.md): the bytes they move, and the fault of the first address of 4096
or more. -/

namespace Sys2Proof.Machine

/-! ## Consecutive bytes written -/

/-- The state with consecutive bytes written: what `storeBytes` leaves where the bytes fit, and a load of an image. -/
def State.putBytes (s : State) (a : Nat) (vs : List Byte) : State :=
  { s with mem := Memory.putList s.params.font a vs s.mem }

theorem storeBytes_eq_putBytes {vs : List Byte} {a : Nat} (s : State) (h : a + vs.length ≤ 4096) :
    storeBytes a vs s = .ok (s.putBytes a vs) := storeBytes_ok vs s h

theorem storeBytes_fault_putBytes {vs : List Byte} {a : Nat} (s : State) (hv : vs ≠ []) (h : 4096 < a + vs.length) :
    storeBytes a vs s =
      .error (raiseFatal .writeRange (.addr (max a 4096)) (s.putBytes a (vs.take (4096 - a)))) := storeBytes_fault vs s hv h

theorem byteAt_putBytes_at {s : State} {a k : Nat} {vs : List Byte} {v : Byte} (h : vs[k]? = some v) :
    (s.putBytes a vs).byteAt (a + k) = v := by
  obtain ⟨hk, rfl⟩ := List.getElem?_eq_some_iff.mp h
  have hin : a ≤ a + k ∧ a + k < a + vs.length := by omega
  simp only [State.byteAt, State.putBytes, Memory.get_putList, dif_pos hin, Nat.add_sub_cancel_left]

theorem byteAt_putBytes_outside {s : State} {a b : Nat} {vs : List Byte} (h : b < a ∨ a + vs.length ≤ b) :
    (s.putBytes a vs).byteAt b = s.byteAt b := by
  have hout : ¬(a ≤ b ∧ b < a + vs.length) := by omega
  simp only [State.byteAt, State.putBytes, Memory.get_putList, dif_neg hout]

/-! ## What is stored, and where -/

theorem effectiveAddress_add (s : State) (k : Nat) : effectiveAddress s k = effectiveAddress s 0 + k := rfl

theorem decimalDigits_length (b : Byte) : (decimalDigits b).length = 3 := rfl

theorem decimalDigits_ne_nil (b : Byte) : decimalDigits b ≠ [] := List.cons_ne_nil _ _

theorem registersUpTo_length (x : RegId) (s : State) : (registersUpTo x s).length = x.toNat + 1 := by
  simp [registersUpTo]

theorem registersUpTo_getElem? {x r : RegId} (h : r.toNat ≤ x.toNat) (s : State) :
    (registersUpTo x s)[r.toNat]? = some (s.getV r) := by
  simp [registersUpTo, Nat.lt_succ_of_le h]

theorem registersUpTo_ne_nil (x : RegId) (s : State) : registersUpTo x s ≠ [] := by
  rw [← List.length_pos_iff, registersUpTo_length]
  omega

/-! ## The meanings, where the addresses are in memory and where they are not -/

theorem exec_ldB_ok {s : State} (h : effectiveAddress s 2 < 4096) (x : RegId) :
    exec (.ldB x) s = completed (s.putBytes (effectiveAddress s 0) (decimalDigits (s.getV x))) := by
  rw [effectiveAddress_add s 2] at h
  rw [exec_ldB, storeBytes_eq_putBytes s (by rw [decimalDigits_length]; omega), andThen_ok]

theorem exec_ldB_fault {s : State} (h : 4096 ≤ effectiveAddress s 2) (x : RegId) :
    exec (.ldB x) s = .next (raiseFatal .writeRange (.addr (max (effectiveAddress s 0) 4096))
      (s.putBytes (effectiveAddress s 0) ((decimalDigits (s.getV x)).take (4096 - effectiveAddress s 0)))) := by
  rw [effectiveAddress_add s 2] at h
  rw [exec_ldB, storeBytes_fault_putBytes s (decimalDigits_ne_nil _) (by rw [decimalDigits_length]; omega), andThen_error]

theorem exec_ldStore_ok {s : State} {x : RegId} (h : effectiveAddress s x.toNat < 4096) :
    exec (.ldStore x) s = completed (s.putBytes (effectiveAddress s 0) (registersUpTo x s)) := by
  rw [effectiveAddress_add s x.toNat] at h
  rw [exec_ldStore, storeBytes_eq_putBytes s (by rw [registersUpTo_length]; omega), andThen_ok]

theorem exec_ldStore_fault {s : State} {x : RegId} (h : 4096 ≤ effectiveAddress s x.toNat) :
    exec (.ldStore x) s = .next (raiseFatal .writeRange (.addr (max (effectiveAddress s 0) 4096))
      (s.putBytes (effectiveAddress s 0) ((registersUpTo x s).take (4096 - effectiveAddress s 0)))) := by
  rw [effectiveAddress_add s x.toNat] at h
  rw [exec_ldStore, storeBytes_fault_putBytes s (registersUpTo_ne_nil x s) (by rw [registersUpTo_length]; omega),
    andThen_error]

theorem exec_ldLoad_ok {s : State} {x : RegId} (h : effectiveAddress s x.toNat < 4096) :
    ∃ u : State, exec (.ldLoad x) s = completed u ∧ u = { s with v := u.v } ∧
      ∀ r : RegId, u.getV r = if r.toNat ≤ x.toNat then s.byteAt (effectiveAddress s r.toNat) else s.getV r := by
  rw [effectiveAddress_add s x.toNat] at h
  obtain ⟨u, hload, hframe, hv⟩ := loadRegs_ok (effectiveAddress s 0) (x.toNat + 1) 0 s (by omega) (by omega)
  refine ⟨u, by rw [exec_ldLoad, hload, andThen_ok], hframe, fun r => ?_⟩
  have hrange : (0 ≤ r.toNat ∧ r.toNat < 0 + (x.toNat + 1)) ↔ r.toNat ≤ x.toNat := by omega
  rw [hv r, ← effectiveAddress_add s r.toNat]
  simp only [hrange]

theorem exec_ldLoad_fault {s : State} {x : RegId} (h : 4096 ≤ effectiveAddress s x.toNat) :
    ∃ u : State, exec (.ldLoad x) s = .next (raiseFatal .readRange (.addr (max (effectiveAddress s 0) 4096)) u) ∧
      u = { s with v := u.v } := by
  rw [effectiveAddress_add s x.toNat] at h
  obtain ⟨u, hload, hframe⟩ := loadRegs_fault (effectiveAddress s 0) (x.toNat + 1) 0 s (by omega) (by omega)
  exact ⟨u, by rw [exec_ldLoad, hload, andThen_error]; rfl, hframe⟩

/-! ## The obligations -/

/-- Settles O32. -/
theorem addIWrapsAt16Bits : Obligations.AddIWrapsAt16Bits := by
  unfold Obligations.AddIWrapsAt16Bits
  intro x s
  obtain ⟨t, hrun, hi, hmem, hframe⟩ := completed_writeI (s.i + (s.getV x).setWidth 16) s
  refine ⟨t, by rw [exec_addI, hrun], ?_, hmem, hframe⟩
  rw [hi, BitVec.toNat_add, BitVec.toNat_setWidth_of_le (by decide)]

/-- Settles O33: each digit is below 10, so its byte keeps it whole. -/
theorem ldBStoresTheDecimalDigits : Obligations.LdBStoresTheDecimalDigits := by
  unfold Obligations.LdBStoresTheDecimalDigits
  refine fun x s => ⟨fun h => ?_, fun h => ⟨_, exec_ldB_fault h x, rfl⟩⟩
  have hbyte := (s.getV x).isLt
  refine ⟨_, exec_ldB_ok h x, ?_, ?_, ?_, fun a ha => ?_, rfl⟩
  · rw [byteAt_advance, effectiveAddress_add s 0, byteAt_putBytes_at (k := 0) rfl, BitVec.toNat_ofNat]
    omega
  · rw [byteAt_advance, effectiveAddress_add s 1, byteAt_putBytes_at rfl, BitVec.toNat_ofNat]
    omega
  · rw [byteAt_advance, effectiveAddress_add s 2, byteAt_putBytes_at rfl, BitVec.toNat_ofNat]
    omega
  · rw [byteAt_advance, byteAt_putBytes_outside ha]

/-- Settles O34. -/
theorem ldStoreStoresV0ToVx : Obligations.LdStoreStoresV0ToVx := by
  unfold Obligations.LdStoreStoresV0ToVx
  refine fun x s => ⟨fun h => ⟨_, exec_ldStore_ok h, fun r hr => ?_, fun a ha => ?_, rfl⟩,
    fun h => ⟨_, exec_ldStore_fault h, rfl⟩⟩
  · rw [byteAt_advance, effectiveAddress_add s r.toNat, byteAt_putBytes_at (registersUpTo_getElem? hr s)]
  · rw [byteAt_advance, byteAt_putBytes_outside (by rwa [registersUpTo_length])]

/-- Settles O35. -/
theorem ldLoadLoadsV0ToVx : Obligations.LdLoadLoadsV0ToVx := by
  unfold Obligations.LdLoadLoadsV0ToVx
  refine fun x s => ⟨fun h => ?_, fun h => ?_⟩
  · obtain ⟨u, hrun, hframe, hv⟩ := exec_ldLoad_ok h
    refine ⟨advance u, hrun, onlyRegisters_advance hframe, fun r hr => ?_, fun r hr => ?_⟩
    · rw [getV_advance, hv r, if_pos hr]
    · rw [getV_advance, hv r, if_neg (Nat.not_le.mpr hr)]
  · obtain ⟨u, hrun, hframe⟩ := exec_ldLoad_fault h
    exact ⟨_, hrun, by rw [raiseFatal_status, hframe]⟩

/-- Settles O36: V0 stands at I and V1 after it, and a fetch reads them in this order. -/
theorem storedWordIsFetchedAtOnce : Obligations.StoredWordIsFetchedAtOnce := by
  unfold Obligations.StoredWordIsFetchedAtOnce
  intro x s t hx haddr hrun
  obtain rfl : advance (s.putBytes (effectiveAddress s 0) (registersUpTo x s)) = t := by
    rw [exec_ldStore_ok haddr] at hrun
    cases hrun
    rfl
  have hstored : ∀ r : RegId, r.toNat ≤ x.toNat →
      (s.putBytes (effectiveAddress s 0) (registersUpTo x s)).byteAt (effectiveAddress s 0 + r.toNat) = s.getV r :=
    fun r hr => byteAt_putBytes_at (registersUpTo_getElem? hr s)
  have hfetchable : s.i.toNat + 1 < 4096 := by
    unfold effectiveAddress at haddr
    omega
  rw [fetch_ok (s := { advance (s.putBytes (effectiveAddress s 0) (registersUpTo x s)) with pc := s.i }) hfetchable,
    ← hstored 0#4 (Nat.zero_le _), ← hstored 1#4 hx]
  rfl

end Sys2Proof.Machine
end

section
/-! Keys and the sound timer (44_timers_input.md): the skips on a key poll, the beginning and the end of a key wait. -/

namespace Sys2Proof.Machine

/-! ## The key skips, with a key value in range and without -/

theorem exec_skp_ok {s : State} {x : RegId} (h : (s.getV x).toNat ≤ 15) :
    exec (.skp x) s = completed (skipIf s.inputs.nextPoll { s with inputs := s.inputs.dropPoll }) := by
  rw [exec_skp, keyCheck_ok h, andThen_ok]
  rfl

theorem exec_sknp_ok {s : State} {x : RegId} (h : (s.getV x).toNat ≤ 15) :
    exec (.sknp x) s = completed (skipIf (!s.inputs.nextPoll) { s with inputs := s.inputs.dropPoll }) := by
  rw [exec_sknp, keyCheck_ok h, andThen_ok]
  rfl

theorem exec_skp_fault {s : State} {x : RegId} (h : 15 < (s.getV x).toNat) :
    exec (.skp x) s = .next (raiseFatal .keyRange (.key (s.getV x)) s) := by
  rw [exec_skp, keyCheck_fault h, andThen_error]

theorem exec_sknp_fault {s : State} {x : RegId} (h : 15 < (s.getV x).toNat) :
    exec (.sknp x) s = .next (raiseFatal .keyRange (.key (s.getV x)) s) := by
  rw [exec_sknp, keyCheck_fault h, andThen_error]

/-- The frame of a skip after a poll: the pc and the poll list alone move. -/
theorem completed_skipIf_polled (c : Bool) (n : Inputs) (s : State) :
    ∃ t, completed (skipIf c { s with inputs := n }) = .next t ∧ t = { s with pc := t.pc, inputs := n } ∧ SameMemory s t ∧
      t.pc.toNat = (s.pc.toNat + if c then 4 else 2) % 65536 := by
  obtain ⟨t, hrun, hframe, hmem, hpc⟩ := onlyPcMoves_completed_skipIf c { s with inputs := n }
  exact ⟨t, hrun, hframe, hmem, hpc⟩

/-! ## A step of the key wait, with a key code and without -/

theorem waitStep_none {s : State} (h : s.inputs.nextKey = none) (x : RegId) :
    waitStep x s = { s with inputs := s.inputs.dropKey } := by
  simp only [waitStep, h]

theorem waitStep_some {s : State} {k : Nibble} (h : s.inputs.nextKey = some k) (x : RegId) :
    waitStep x s = keyArrive x k { s with inputs := s.inputs.dropKey } := by
  simp only [waitStep, h]

/-! ## The obligations -/

/-- Settles O41: SKNP is SKP on the poll's opposite. -/
theorem keySkipsFollowThePoll : Obligations.KeySkipsFollowThePoll := by
  unfold Obligations.KeySkipsFollowThePoll
  refine fun x s => ⟨fun h => ?_, fun h => ⟨⟨_, exec_skp_fault h, rfl⟩, _, exec_sknp_fault h, rfl⟩⟩
  rw [exec_skp_ok h, exec_sknp_ok h]
  refine ⟨completed_skipIf_polled s.inputs.nextPoll s.inputs.dropPoll s, ?_⟩
  have hopposite : (if !s.inputs.nextPoll then 4 else 2) = if s.inputs.nextPoll then 2 else 4 := by
    cases s.inputs.nextPoll <;> rfl
  exact hopposite ▸ completed_skipIf_polled (!s.inputs.nextPoll) s.inputs.dropPoll s

/-- Settles O43. -/
theorem soundTimerWrite : Obligations.SoundTimerWrite := by
  unfold Obligations.SoundTimerWrite
  exact fun x s => ⟨_, exec_ldStVx x s, rfl, fun _ => rfl, rfl⟩

/-- Settles O44: there is no advance, so the pc stays at the instruction. -/
theorem ldVxKBeginsTheWait : Obligations.LdVxKBeginsTheWait := by
  unfold Obligations.LdVxKBeginsTheWait
  exact fun x s => ⟨_, exec_ldVxK x s, rfl, rfl, fun _ => rfl, fun _ _ => rfl, rfl⟩

/-- Settles O11. -/
theorem keyArrivalCompletesTheWait : Obligations.KeyArrivalCompletesTheWait := by
  unfold Obligations.KeyArrivalCompletesTheWait
  intro s x hs
  rw [step_waitKey hs]
  refine ⟨fun hnone => by rw [waitStep_none hnone], fun k hsome => ?_⟩
  rw [waitStep_some hsome]
  refine ⟨_, rfl, ?_, registersKept_keyArrive x k { s with inputs := s.inputs.dropKey }, fun _ => rfl, rfl⟩
  have hcode : (keyArrive x k { s with inputs := s.inputs.dropKey }).getV x = k.setWidth 8 := getV_setV_same _ x _
  rw [hcode, BitVec.toNat_setWidth_of_le (by decide)]

end Sys2Proof.Machine
end

section
/-! The sprite draw (43_display.md R192): the pixels it flips, the collision it reports, and the fault of a sprite byte past
memory. -/

namespace Sys2Proof.Machine

/-! ## The cover of a sprite -/

/-- A row collides where a set pixel lies under one of its set bits. -/
theorem rowsCollide_iff (s : State) (cx cy : Byte) (base : Nat) (rows : List Nat) :
    rowsCollide s cx cy base rows = true ↔
      ∃ pos, pos < 2048 ∧ s.pixel pos = true ∧ rowsCover s cx cy base rows pos = true := by
  simp only [rowsCollide, rowCollides, rowsCover, rowCovers, List.any_eq_true, Bool.and_eq_true, beq_iff_eq]
  constructor
  · rintro ⟨row, hrow, col, hcol, hbit, hpixel⟩
    exact ⟨_, pixelPosition_lt cx cy row col, hpixel, row, hrow, col, hcol, hbit, rfl⟩
  · rintro ⟨_, -, hpixel, row, hrow, col, hcol, hbit, rfl⟩
    exact ⟨row, hrow, col, hcol, hbit, hpixel⟩

/-- The cover depends on the sprite's bytes alone. -/
theorem spriteCovers_congr {s u : State} {base n : Nat} (hbytes : ∀ k, k < n → u.byteAt (base + k) = s.byteAt (base + k))
    (cx cy : Byte) (pos : Nat) : spriteCovers u cx cy base n pos = spriteCovers s cx cy base n pos := by
  rw [Bool.eq_iff_iff, spriteCovers, spriteCovers, List.any_eq_true, List.any_eq_true]
  refine exists_congr fun row => and_congr_right fun hrow => ?_
  rw [hbytes row (List.mem_range.mp hrow)]

/-! ## The meaning, where the sprite is in memory and where it is not -/

/-- Is the sprite of a draw in memory? With no rows there is no byte to read. -/
def SpriteInMemory (s : State) (n : Nibble) : Prop := n = 0#4 ∨ effectiveAddress s n.toNat ≤ 4096

/-- The cover of the sprite that `Dxyn` draws. -/
def drwCovers (x y : RegId) (n : Nibble) (s : State) (pos : Nat) : Bool :=
  spriteCovers s (s.getV x) (s.getV y) (effectiveAddress s 0) n.toNat pos

theorem exec_drw_ok {s : State} {n : Nibble} (h : SpriteInMemory s n) (x y : RegId) :
    ∃ u : State, exec (.drw x y n) s = completed u ∧ u = { s with v := u.v, fb := u.fb } ∧
      (∀ pos, u.pixel pos = (s.pixel pos ^^ drwCovers x y n s pos)) ∧ (∀ z, z ≠ vf → u.getV z = s.getV z) ∧
      (u.getV vf = 0#8 ∨ u.getV vf = 1#8) ∧
      (u.getV vf = 1#8 ↔ ∃ pos, pos < 2048 ∧ s.pixel pos = true ∧ drwCovers x y n s pos = true) := by
  have hfits : n.toNat = 0 ∨ effectiveAddress s 0 + 0 + n.toNat ≤ 4096 := by
    obtain rfl | h := h
    · exact .inl rfl
    · exact .inr h
  obtain ⟨u, hdraw, hframe, hpixel, hv⟩ :=
    drawRows_ok (s.getV x) (s.getV y) (effectiveAddress s 0) n.toNat 0 (s.setV vf 0#8) (by omega) hfits
  have hcover : ∀ pos, rowsCover (s.setV vf 0#8) (s.getV x) (s.getV y) (effectiveAddress s 0) (List.range' 0 n.toNat) pos =
      drwCovers x y n s pos := fun pos => rowsCover_eq_spriteCovers s _ _ _ _ pos
  have hcollide := rowsCollide_iff (s.setV vf 0#8) (s.getV x) (s.getV y) (effectiveAddress s 0) (List.range' 0 n.toNat)
  simp only [hcover, pixel_setV] at hpixel hcollide
  have hflag := hv vf
  rw [getV_setV_same] at hflag
  refine ⟨u, by rw [exec_drw, hdraw, andThen_ok], by rw [hframe]; rfl, hpixel, fun z hz => ?_, ?_, ?_⟩
  · rw [hv z, if_neg fun hc => hz hc.1, getV_setV_other s hz]
  · rw [hflag]
    split
    · exact .inr rfl
    · exact .inl rfl
  · rw [hflag, ← hcollide]
    split
    · next hc => exact iff_of_true rfl hc.2
    · next hc => exact iff_of_false (by decide) fun hcol => hc ⟨rfl, hcol⟩

theorem exec_drw_fault {s : State} {n : Nibble} (hn : n ≠ 0#4) (h : 4096 < effectiveAddress s n.toNat) (x y : RegId) :
    ∃ u : State, exec (.drw x y n) s = .next (raiseFatal .readRange (.addr (max (effectiveAddress s 0) 4096)) u) ∧
      u = { s with v := u.v, fb := u.fb } := by
  have hrows : 0 < n.toNat := Nat.pos_of_ne_zero fun h0 => hn (BitVec.eq_of_toNat_eq h0)
  obtain ⟨u, hdraw, hframe⟩ :=
    drawRows_fault (s.getV x) (s.getV y) (effectiveAddress s 0) n.toNat 0 (s.setV vf 0#8) (by omega) hrows h
  exact ⟨u, by rw [exec_drw, hdraw, andThen_error]; rfl, by rw [hframe]; rfl⟩

/-! ## The obligations -/

/-- Settles O38. -/
theorem drwFlipsThePixelsUnderTheSprite : Obligations.DrwFlipsThePixelsUnderTheSprite := by
  unfold Obligations.DrwFlipsThePixelsUnderTheSprite
  intro x y n s h
  obtain ⟨u, hrun, hframe, hpixel, hkept, hbit, hflag⟩ := exec_drw_ok h x y
  refine ⟨advance u, hrun, fun pos _ => hpixel pos, hbit, hflag, fun z hz => hkept z (List.ne_of_not_mem_cons hz),
    fun a => ?_, ?_⟩
  · rw [byteAt_advance, hframe]
    rfl
  · rw [hframe]
    rfl

/-- Settles O39. -/
theorem drwFaultsPastMemory : Obligations.DrwFaultsPastMemory := by
  unfold Obligations.DrwFaultsPastMemory
  intro x y n s hn h
  obtain ⟨u, hrun, hframe⟩ := exec_drw_fault hn h x y
  exact ⟨_, hrun, by rw [raiseFatal_status, hframe]⟩

/-- Settles O40: both draws cover the same pixels, so the second flips each back; it meets a set pixel under the sprite just
where the first has set one. -/
theorem drawingTwiceRestoresTheScreen : Obligations.DrawingTwiceRestoresTheScreen := by
  unfold Obligations.DrawingTwiceRestoresTheScreen
  intro x y n s t u _ _ h hrun hfb hx hy hi hbytes
  obtain ⟨t', hrun', -, hfirst, -⟩ := exec_drw_ok h x y
  obtain rfl : advance t' = t := by
    rw [hrun] at hrun'
    cases hrun'
    rfl
  have hsame : ∀ k, effectiveAddress u k = effectiveAddress s k := fun k => by rw [effectiveAddress, hi, effectiveAddress]
  have hu : SpriteInMemory u n := by rwa [SpriteInMemory, hsame]
  obtain ⟨r, hrun₂, -, hsecond, -, -, hflag⟩ := exec_drw_ok hu x y
  have hcover : ∀ pos, drwCovers x y n u pos = drwCovers x y n s pos := fun pos => by
    rw [drwCovers, hx, hy, hsame, spriteCovers_congr (base := effectiveAddress s 0) hbytes, drwCovers]
  have hscreen : ∀ pos, u.pixel pos = (s.pixel pos ^^ drwCovers x y n s pos) := fun pos => by
    rw [pixel_congr hfb, pixel_advance, hfirst]
  refine ⟨advance r, hrun₂, fun pos _ => ?_, ?_⟩
  · rw [pixel_advance, hsecond, hscreen, hcover, Bool.xor_assoc, Bool.xor_self, Bool.xor_false]
  · rw [getV_advance, hflag]
    refine exists_congr fun pos => and_congr_right fun _ => ?_
    rw [hscreen, hcover, pixel_advance, hfirst]
    cases s.pixel pos <;> cases drwCovers x y n s pos <;> decide

end Sys2Proof.Machine
end

section
/-! What an instruction can answer: it completes with its own effect, begins a key wait, or raises its own fault. The rules about
the whole machine are derived from this. -/

namespace Sys2Proof.Machine

/-! ## The effect of a completed instruction -/

/-- `Annn`, `Fx1E` and `Fx29`, the instructions that write I (10_state.md section 3). -/
def WritesI (i : Instr) : Prop := (∃ nnn, i = .ldI nnn) ∨ (∃ x, i = .addI x) ∨ ∃ x, i = .ldF x

/-- The six instructions that write VF as a flag, and those whose plain destination is F (10_state.md section 2). -/
def WritesVf (i : Instr) : Prop :=
  (∃ x y, i = .addReg x y ∨ i = .sub x y ∨ i = .shr x y ∨ i = .subn x y ∨ i = .shl x y) ∨
  (∃ x y n, i = .drw x y n) ∨
  (∃ kk, i = .ldImm vf kk ∨ i = .addImm vf kk ∨ i = .rnd vf kk) ∨
  (∃ y, i = .ldReg vf y ∨ i = .or vf y ∨ i = .and vf y ∨ i = .xor vf y) ∨
  i = .ldVxDt vf ∨ i = .ldLoad vf

/-- Where the pc may stand when an instruction is about to be advanced from: at it, past a skip, or before a jump's target, which
is at most the longest of `Bnnn` (40_control_flow.md R130, R138). -/
def MovesPcTo (s : State) (p : Word) : Prop :=
  p = s.pc ∨ p = s.pc + 2#16 ∨ ∃ target, target ≤ 0x10FE ∧ p = BitVec.ofNat 16 target - 2#16

/-- `Effect s i u`: run to completion at `s`, `i` has made `u` of it, but for the advance. -/
inductive Effect (s : State) : Instr → State → Prop
  | pc (i : Instr) (p : Word) (n : Inputs) (hp : MovesPcTo s p) : Effect s i { s with pc := p, inputs := n }
  | registers (i : Instr) (v : Vector Byte 16) (n : Inputs)
      (hvf : ({ s with v := v } : State).getV vf ≠ s.getV vf → WritesVf i) : Effect s i { s with v := v, inputs := n }
  | index (i : Instr) (a : Word) (hi : WritesI i) : Effect s i { s with i := a }
  | call (nnn : Addr12) (hroom : s.stack.length < 16) :
      Effect s (.call nnn) (jump nnn.toNat { s with stack := s.stack ++ [s.pc] })
  | ret (rest : List Word) (r : Word) (hstack : s.stack = rest ++ [r]) : Effect s .ret { s with stack := rest, pc := r }
  | clear : Effect s .cls (fbClear s)
  | draw (x y : RegId) (n : Nibble) (v : Vector Byte 16) (fb : Pixels) : Effect s (.drw x y n) { s with v := v, fb := fb }
  | digits (x : RegId) (h : effectiveAddress s 2 < 4096) :
      Effect s (.ldB x) (s.putBytes (effectiveAddress s 0) (decimalDigits (s.getV x)))
  | store (x : RegId) (h : effectiveAddress s x.toNat < 4096) :
      Effect s (.ldStore x) (s.putBytes (effectiveAddress s 0) (registersUpTo x s))
  | delay (x : RegId) : Effect s (.ldDtVx x) { s with dt := s.getV x }
  | sound (x : RegId) : Effect s (.ldStVx x) { s with st := s.getV x }

/-! ## The faults an instruction can raise (60_exceptions.md R220) -/

/-- `Raises s i c f`: run at `s`, `i` raises the cause `c` and records `f`. -/
inductive Raises (s : State) : Instr → Cause → FaultInfo → Prop
  | overflow (nnn : Addr12) (h : 16 ≤ s.stack.length) : Raises s (.call nnn) .stackOverflow .pcOnly
  | underflow (h : s.stack = []) : Raises s .ret .stackUnderflow .pcOnly
  | sprite (x y : RegId) (n : Nibble) (hn : n ≠ 0#4) (h : 4096 < effectiveAddress s n.toNat) :
      Raises s (.drw x y n) .readRange (.addr (max (effectiveAddress s 0) 4096))
  | load (x : RegId) (h : 4096 ≤ effectiveAddress s x.toNat) :
      Raises s (.ldLoad x) .readRange (.addr (max (effectiveAddress s 0) 4096))
  | digits (x : RegId) (h : 4096 ≤ effectiveAddress s 2) :
      Raises s (.ldB x) .writeRange (.addr (max (effectiveAddress s 0) 4096))
  | store (x : RegId) (h : 4096 ≤ effectiveAddress s x.toNat) :
      Raises s (.ldStore x) .writeRange (.addr (max (effectiveAddress s 0) 4096))
  | skp (x : RegId) (h : 15 < (s.getV x).toNat) : Raises s (.skp x) .keyRange (.key (s.getV x))
  | sknp (x : RegId) (h : 15 < (s.getV x).toNat) : Raises s (.sknp x) .keyRange (.key (s.getV x))

/-- What the accesses before a fault may have changed (60_exceptions.md R222, decision D29). -/
def FaultFrame (s u : State) : Prop :=
  u = { s with v := u.v, mem := u.mem, fb := u.fb } ∧ (Memory.wf s.params.font s.mem → Memory.wf s.params.font u.mem)

theorem FaultFrame.refl (s : State) : FaultFrame s s := ⟨rfl, id⟩

/-- The bytes of a store that lie in memory keep the canonical form. -/
theorem FaultFrame.putBytes (s : State) (a : Nat) (vs : List Byte) : FaultFrame s (s.putBytes a (vs.take (4096 - a))) := by
  refine ⟨rfl, fun hwf => ?_⟩
  obtain ha | ha := Nat.le_total a 4096
  · exact Memory.putList_wf _ _ (by rw [List.length_take]; omega) hwf
  · rwa [State.putBytes, Nat.sub_eq_zero_of_le ha, List.take_zero, Memory.putList]

/-! ## Every instruction's answer -/

/-- `Answer s i t`: run at `s`, `i` answers the next state `t`. -/
inductive Answer (s : State) (i : Instr) : State → Prop
  | completes {u : State} (h : Effect s i u) : Answer s i (advance u)
  | waits (x : RegId) (hi : i = .ldVxK x) : Answer s i { s with status := .waitKey x }
  | faults {c : Cause} {f : FaultInfo} {u : State} (h : Raises s i c f) (hu : FaultFrame s u) : Answer s i (raiseFatal c f u)

theorem movesPcTo_skipIf (c : Bool) (s : State) : MovesPcTo s (skipIf c s).pc := by
  rw [skipIf_pc]
  cases c
  · exact .inl rfl
  · exact .inr (.inl rfl)

/-- A skip moves the pc alone. -/
theorem Effect.skipIf (i : Instr) (c : Bool) (n : Inputs) (s : State) : Effect s i (skipIf c { s with inputs := n }) := by
  have hframe : Machine.skipIf c { s with inputs := n } = { s with pc := (Machine.skipIf c s).pc, inputs := n } := by
    cases c <;> rfl
  rw [hframe]
  exact .pc i _ n (movesPcTo_skipIf c s)

/-- A jump to a target of at most 0x10FE. -/
theorem Effect.jump (i : Instr) {target : Nat} (h : target ≤ 0x10FE) (s : State) : Effect s i (jump target s) :=
  .pc i _ s.inputs (.inr (.inr ⟨target, h, rfl⟩))

/-- One plain destination: it is VF or VF is kept. -/
theorem Effect.setV (i : Instr) (x : RegId) (b : Byte) (n : Inputs) (s : State) (hi : x = vf → WritesVf i) :
    Effect s i ({ s with inputs := n }.setV x b) :=
  .registers i _ n fun hne => hi <| by
    by_contra hx
    exact hne (getV_setV_other s (Ne.symm hx) b)

/-- A flag-writing operation of family 8. -/
theorem Effect.setResultFlag (i : Instr) (x : RegId) (r f : Byte) (s : State) (hi : WritesVf i) :
    Effect s i (setResultFlag x r f s) := .registers i _ s.inputs fun _ => hi

theorem answer_completes {i : Instr} {s u : State} (hrun : exec i s = completed u) (h : Effect s i u) :
    ∃ t, exec i s = .next t ∧ Answer s i t := ⟨advance u, hrun, .completes h⟩

theorem answer_faults {i : Instr} {s u : State} {c : Cause} {f : FaultInfo} (hrun : exec i s = .next (raiseFatal c f u))
    (h : Raises s i c f) (hu : FaultFrame s u) : ∃ t, exec i s = .next t ∧ Answer s i t := ⟨_, hrun, .faults h hu⟩

/-- Every instruction answers a next state from every state, and the answer is one of its own. -/
theorem exec_answers (i : Instr) (s : State) : ∃ t, exec i s = .next t ∧ Answer s i t := by
  cases i with
  | cls => exact answer_completes (exec_cls s) .clear
  | ret =>
    obtain h | ⟨rest, r, h⟩ := List.eq_nil_or_concat s.stack
    · exact answer_faults (exec_ret_fault h) (.underflow h) (.refl s)
    · rw [List.concat_eq_append] at h
      exact answer_completes (exec_ret_ok h) (.ret rest r h)
  | jp nnn => exact answer_completes (exec_jp nnn s) (.jump _ (by omega) s)
  | call nnn =>
    obtain h | h := Nat.lt_or_ge s.stack.length 16
    · exact answer_completes (exec_call_ok h nnn) (.call nnn h)
    · exact answer_faults (exec_call_fault h nnn) (.overflow nnn h) (.refl s)
  | seImm x kk => exact answer_completes (exec_seImm x kk s) (.skipIf _ _ s.inputs s)
  | sneImm x kk => exact answer_completes (exec_sneImm x kk s) (.skipIf _ _ s.inputs s)
  | seReg x y n => exact answer_completes (exec_seReg x y n s) (.skipIf _ _ s.inputs s)
  | sneReg x y n => exact answer_completes (exec_sneReg x y n s) (.skipIf _ _ s.inputs s)
  | ldImm x kk =>
    exact answer_completes (exec_ldImm x kk s) (.setV _ x kk s.inputs s (by rintro rfl; simp [WritesVf]))
  | addImm x kk =>
    exact answer_completes (exec_addImm x kk s) (.setV _ x _ s.inputs s (by rintro rfl; simp [WritesVf]))
  | ldReg x y =>
    exact answer_completes (exec_ldReg x y s) (.setV _ x _ s.inputs s (by rintro rfl; simp [WritesVf]))
  | or x y => exact answer_completes (exec_or x y s) (.setV _ x _ s.inputs s (by rintro rfl; simp [WritesVf]))
  | and x y => exact answer_completes (exec_and x y s) (.setV _ x _ s.inputs s (by rintro rfl; simp [WritesVf]))
  | xor x y => exact answer_completes (exec_xor x y s) (.setV _ x _ s.inputs s (by rintro rfl; simp [WritesVf]))
  | addReg x y => exact answer_completes (exec_addReg x y s) (.setResultFlag _ x _ _ s (by simp [WritesVf]))
  | sub x y => exact answer_completes (exec_sub x y s) (.setResultFlag _ x _ _ s (by simp [WritesVf]))
  | shr x y => exact answer_completes (exec_shr x y s) (.setResultFlag _ x _ _ s (by simp [WritesVf]))
  | subn x y => exact answer_completes (exec_subn x y s) (.setResultFlag _ x _ _ s (by simp [WritesVf]))
  | shl x y => exact answer_completes (exec_shl x y s) (.setResultFlag _ x _ _ s (by simp [WritesVf]))
  | ldI nnn => exact answer_completes (exec_ldI nnn s) (.index _ _ (.inl ⟨nnn, rfl⟩))
  | jpV0 nnn =>
    exact answer_completes (exec_jpV0 nnn s) (.jump _ (by unfold jumpV0Target; omega) s)
  | rnd x kk =>
    exact answer_completes (exec_rnd x kk s) (.setV _ x _ s.inputs.dropRandom s (by rintro rfl; simp [WritesVf]))
  | drw x y n =>
    by_cases h : SpriteInMemory s n
    · obtain ⟨u, hrun, hframe, -⟩ := exec_drw_ok h x y
      exact answer_completes hrun (hframe ▸ .draw x y n u.v u.fb)
    · obtain ⟨hn, hpast⟩ : n ≠ 0#4 ∧ 4096 < effectiveAddress s n.toNat := by
        simpa only [SpriteInMemory, not_or, Nat.not_le] using h
      obtain ⟨u, hrun, hframe⟩ := exec_drw_fault hn hpast x y
      exact answer_faults hrun (.sprite x y n hn hpast) ⟨by rw [hframe], by rw [hframe]; exact id⟩
  | skp x =>
    obtain h | h := Nat.lt_or_ge 15 (s.getV x).toNat
    · exact answer_faults (exec_skp_fault h) (.skp x h) (.refl s)
    · exact answer_completes (exec_skp_ok h) (.skipIf _ _ _ s)
  | sknp x =>
    obtain h | h := Nat.lt_or_ge 15 (s.getV x).toNat
    · exact answer_faults (exec_sknp_fault h) (.sknp x h) (.refl s)
    · exact answer_completes (exec_sknp_ok h) (.skipIf _ _ _ s)
  | ldVxDt x =>
    exact answer_completes (exec_ldVxDt x s) (.setV _ x _ s.inputs s (by rintro rfl; simp [WritesVf]))
  | ldDtVx x => exact answer_completes (exec_ldDtVx x s) (.delay x)
  | ldVxK x => exact ⟨_, exec_ldVxK x s, .waits x rfl⟩
  | ldStVx x => exact answer_completes (exec_ldStVx x s) (.sound x)
  | addI x => exact answer_completes (exec_addI x s) (.index _ _ (.inr (.inl ⟨x, rfl⟩)))
  | ldF x => exact answer_completes (exec_ldF x s) (.index _ _ (.inr (.inr ⟨x, rfl⟩)))
  | ldB x =>
    obtain h | h := Nat.lt_or_ge (effectiveAddress s 2) 4096
    · exact answer_completes (exec_ldB_ok h x) (.digits x h)
    · exact answer_faults (exec_ldB_fault h x) (.digits x h) (.putBytes s _ _)
  | ldStore x =>
    obtain h | h := Nat.lt_or_ge (effectiveAddress s x.toNat) 4096
    · exact answer_completes (exec_ldStore_ok h) (.store x h)
    · exact answer_faults (exec_ldStore_fault h) (.store x h) (.putBytes s _ _)
  | ldLoad x =>
    obtain h | h := Nat.lt_or_ge (effectiveAddress s x.toNat) 4096
    · obtain ⟨u, hrun, hframe, hv⟩ := exec_ldLoad_ok h
      refine answer_completes hrun (hframe ▸ .registers _ u.v s.inputs fun hne => ?_)
      have hx : x = vf := by
        by_contra hx
        refine hne ((hv vf).trans (if_neg fun hle => hx (BitVec.eq_of_toNat_eq ?_)))
        have : vf.toNat = 15 := rfl
        omega
      subst hx
      simp [WritesVf]
    · obtain ⟨u, hrun, hframe⟩ := exec_ldLoad_fault h
      exact answer_faults hrun (.load x h) ⟨by rw [hframe], by rw [hframe]; exact id⟩
  | sys nnn => exact answer_completes (exec_sys nnn s) (.pc _ s.pc s.inputs (.inl rfl))
  | nop8 x y n => exact answer_completes (exec_nop8 x y n s) (.pc _ s.pc s.inputs (.inl rfl))
  | nopE x kk => exact answer_completes (exec_nopE x kk s) (.pc _ s.pc s.inputs (.inl rfl))
  | nopF x kk => exact answer_completes (exec_nopF x kk s) (.pc _ s.pc s.inputs (.inl rfl))

end Sys2Proof.Machine
end

section
/-! Rules about every step (10_state.md, 60_exceptions.md): what a completed instruction changes, what the other transitions
change, and the rules that follow. -/

namespace Sys2Proof.Machine

/-! ## What the effect of an instruction leaves as it was -/

section
variable {s u : State} {i : Instr}

theorem Effect.writesI_of_i_ne (h : Effect s i u) (hne : u.i ≠ s.i) : WritesI i := by
  cases h with
  | index _ _ hi => exact hi
  | _ => exact absurd rfl hne

theorem Effect.call_or_ret_of_stack_ne (h : Effect s i u) (hne : u.stack ≠ s.stack) : (∃ nnn, i = .call nnn) ∨ i = .ret := by
  cases h with
  | call nnn _ => exact .inl ⟨nnn, rfl⟩
  | ret _ _ _ => exact .inr rfl
  | _ => exact absurd rfl hne

theorem Effect.cls_or_drw_of_fb_ne (h : Effect s i u) (hne : u.fb ≠ s.fb) : i = .cls ∨ ∃ x y n, i = .drw x y n := by
  cases h with
  | clear => exact .inl rfl
  | draw x y n _ _ => exact .inr ⟨x, y, n, rfl⟩
  | _ => exact absurd rfl hne

theorem Effect.ldDtVx_of_dt_ne (h : Effect s i u) (hne : u.dt ≠ s.dt) : ∃ x, i = .ldDtVx x := by
  cases h with
  | delay x => exact ⟨x, rfl⟩
  | _ => exact absurd rfl hne

theorem Effect.ldStVx_of_st_ne (h : Effect s i u) (hne : u.st ≠ s.st) : ∃ x, i = .ldStVx x := by
  cases h with
  | sound x => exact ⟨x, rfl⟩
  | _ => exact absurd rfl hne

theorem Effect.writesVf_of_vf_ne (h : Effect s i u) (hne : u.getV vf ≠ s.getV vf) : WritesVf i := by
  cases h with
  | registers _ _ _ hvf => exact hvf hne
  | draw x y n _ _ => exact .inr (.inl ⟨x, y, n, rfl⟩)
  | _ => exact absurd rfl hne

/-- A byte that a write of consecutive bytes changed lies among them. -/
theorem byteAt_putBytes_ne {a b : Nat} {vs : List Byte} (hne : (s.putBytes a vs).byteAt b ≠ s.byteAt b) :
    a ≤ b ∧ b < a + vs.length := by
  by_contra hout
  exact hne (byteAt_putBytes_outside (by omega))

/-- The bytes that an instruction writes (20_memory.md section 1). -/
def WritesByte (s : State) (i : Instr) (a : Nat) : Prop :=
  (∃ x, i = .ldB x ∧ effectiveAddress s 0 ≤ a ∧ a ≤ effectiveAddress s 2) ∨
  ∃ x : RegId, i = .ldStore x ∧ effectiveAddress s 0 ≤ a ∧ a ≤ effectiveAddress s x.toNat

theorem Effect.writesByte_of_byteAt_ne {a : Nat} (h : Effect s i u) (hne : u.byteAt a ≠ s.byteAt a) :
    a < 4096 ∧ WritesByte s i a := by
  cases h with
  | digits x haddr =>
    obtain ⟨hlo, hhi⟩ := byteAt_putBytes_ne hne
    rw [decimalDigits_length] at hhi
    rw [effectiveAddress_add s 2] at haddr
    exact ⟨by omega, .inl ⟨x, rfl, hlo, by rw [effectiveAddress_add s 2]; omega⟩⟩
  | store x haddr =>
    obtain ⟨hlo, hhi⟩ := byteAt_putBytes_ne hne
    rw [registersUpTo_length] at hhi
    rw [effectiveAddress_add s x.toNat] at haddr
    exact ⟨by omega, .inr ⟨x, rfl, hlo, by rw [effectiveAddress_add s x.toNat]; omega⟩⟩
  | _ => exact absurd rfl hne

/-- No instruction changes the status, the parameters or the outputs by completing. -/
theorem Effect.engine_kept (h : Effect s i u) : u.status = s.status ∧ u.params = s.params ∧ u.outputs = s.outputs := by
  cases h with
  | _ => exact ⟨rfl, rfl, rfl⟩

theorem Effect.memory_wf (h : Effect s i u) (hwf : Memory.wf s.params.font s.mem) : Memory.wf u.params.font u.mem := by
  cases h with
  | digits x haddr =>
    rw [effectiveAddress_add s 2] at haddr
    exact Memory.putList_wf _ _ (by rw [decimalDigits_length]; omega) hwf
  | store x haddr =>
    rw [effectiveAddress_add s x.toNat] at haddr
    exact Memory.putList_wf _ _ (by rw [registersUpTo_length]; omega) hwf
  | _ => exact hwf

end

/-! ## The transitions (60_exceptions.md R232) -/

/-- `Transition s t`: a step from `s` answers the next state `t`. -/
inductive Transition (s : State) : State → Prop
  | loadFails (r : LoadFailure) (hs : s.status = .reset) : Transition s { s with status := .loadFailed r }
  | loads (image : List Byte) (hs : s.status = .reset) (hfits : image.length ≤ 3584) :
      Transition s { s.putBytes 512 image with status := .running }
  | ticks (hs : s.status = .running) : Transition s (tick (gateFired s))
  | fetchFaults (hs : s.status = .running) : Transition s (raiseFatal .fetchRange .pcOnly (gateFired s))
  | runs {i : Instr} {t : State} (hi : s.aboutToRun i) (h : Answer (gateFired s) i t) : Transition s t
  | waits {x : RegId} (hs : s.status = .waitKey x) : Transition s { s with inputs := s.inputs.dropKey }
  | arrives {x : RegId} (k : Nibble) (hs : s.status = .waitKey x) :
      Transition s (keyArrive x k { s with inputs := s.inputs.dropKey })

theorem answer_of_exec {i : Instr} {s t : State} (h : exec i s = .next t) : Answer s i t := by
  obtain ⟨t', hrun, hanswer⟩ := exec_answers i s
  rw [h] at hrun
  cases hrun
  exact hanswer

theorem transition_of_step {s t : State} (h : step s = .next t) : Transition s t := by
  obtain ⟨hs, rfl⟩ | ⟨hs, -, rfl⟩ | ⟨hs, -, -, rfl⟩ | ⟨hs, hgate, hpc, hrun⟩ | ⟨x, hs, rfl⟩ := step_cases h
  · obtain ⟨-, hload⟩ | ⟨image, -, -, hload⟩ | ⟨image, -, hfits, hload⟩ := loadImage_cases s
    · rw [hload]
      exact .loadFails _ hs
    · rw [hload]
      exact .loadFails _ hs
    · rw [hload]
      exact .loads image hs hfits
  · exact .ticks hs
  · exact .fetchFaults hs
  · exact .runs ⟨hs, hgate, hpc, rfl⟩ (answer_of_exec hrun)
  · cases hkey : s.inputs.nextKey with
    | none =>
      rw [waitStep_none hkey]
      exact .waits hs
    | some k =>
      rw [waitStep_some hkey]
      exact .arrives k hs

/-! ## What the transitions that complete no instruction leave as it was -/

/-- What changes where no instruction completes: timers fall, a load writes from 512 on, a key arrives. -/
structure EngineFrame (s t : State) : Prop where
  index : t.i = s.i
  stack : t.stack = s.stack
  fb : t.fb = s.fb
  memory : ∀ a, t.byteAt a ≠ s.byteAt a → a < 4096 ∧ s.status = .reset ∧ 512 ≤ a
  dt : t.dt.toNat ≤ s.dt.toNat
  st : t.st.toNat ≤ s.st.toNat
  vf : t.getV vf ≠ s.getV vf → s.status = .waitKey vf

/-- Where the timers, the registers and memory are as before too. -/
theorem EngineFrame.of_eq {s : State} (p : Word) (st : Status) (n : Inputs) (o : List Output) :
    EngineFrame s { s with pc := p, status := st, inputs := n, outputs := o } where
  index := rfl
  stack := rfl
  fb := rfl
  memory _ h := absurd rfl h
  dt := Nat.le_refl _
  st := Nat.le_refl _
  vf h := absurd rfl h

theorem engineFrame_load {s : State} {image : List Byte} (hs : s.status = .reset) (hfits : image.length ≤ 3584) :
    EngineFrame s { s.putBytes 512 image with status := .running } where
  index := rfl
  stack := rfl
  fb := rfl
  memory a h := by
    obtain ⟨hlo, hhi⟩ := byteAt_putBytes_ne (s := s) (vs := image) h
    exact ⟨by omega, hs, hlo⟩
  dt := Nat.le_refl _
  st := Nat.le_refl _
  vf h := absurd rfl h

/-- A timer's decrement stops at 0, so it never rises. -/
theorem toNat_timer (b : Byte) : (if b = 0#8 then 0#8 else b - 1#8).toNat = b.toNat - 1 := by
  by_cases h : b = 0#8
  · rw [if_pos h, h]
    rfl
  · have hpos : b.toNat ≠ 0 := fun h0 => h (BitVec.eq_of_toNat_eq h0)
    rw [if_neg h]
    bv_omega

theorem tick_dt_toNat (s : State) : (tick s).dt.toNat = s.dt.toNat - 1 := by rw [tick_dt, toNat_timer]

theorem tick_st_toNat (s : State) : (tick s).st.toNat = s.st.toNat - 1 := by rw [tick_st, toNat_timer]

theorem engineFrame_tick (s : State) : EngineFrame s (tick (gateFired s)) where
  index := by rw [tick_frame]; rfl
  stack := by rw [tick_frame]; rfl
  fb := by rw [tick_frame]; rfl
  memory a h := absurd (by rw [tick_frame]; rfl) h
  dt := by rw [tick_dt_toNat]; exact Nat.sub_le _ _
  st := by rw [tick_st_toNat]; exact Nat.sub_le _ _
  vf h := absurd (by rw [tick_frame]; rfl) h

theorem engineFrame_keyArrive {s : State} {x : RegId} (k : Nibble) (n : Inputs) (hs : s.status = .waitKey x) :
    EngineFrame s (keyArrive x k { s with inputs := n }) where
  index := rfl
  stack := rfl
  fb := rfl
  memory _ h := absurd rfl h
  dt := Nat.le_refl _
  st := Nat.le_refl _
  vf h := by
    rw [hs, Status.waitKey.injEq]
    by_contra hx
    exact h (registersKept_keyArrive x k { s with inputs := n } vf (by simpa using Ne.symm hx))

/-- A step that has not failed completed an instruction, or changed only what the engine changes by itself. -/
theorem completed_or_engineFrame {s t : State} (h : step s = .next t) (hok : t.failed = false) :
    (∃ i u, s.aboutToRun i ∧ Effect (gateFired s) i u ∧ t = advance u) ∨ EngineFrame s t := by
  cases transition_of_step h with
  | loadFails r hs => cases hok
  | loads image hs hfits => exact .inr (engineFrame_load hs hfits)
  | ticks hs => exact .inr (engineFrame_tick s)
  | fetchFaults hs => cases hok
  | runs hi hanswer =>
    cases hanswer with
    | completes heffect => exact .inl ⟨_, _, hi, heffect, rfl⟩
    | waits x hx => exact .inr (.of_eq s.pc _ _ s.outputs)
    | faults hraises hu => cases hok
  | waits hs => exact .inr (.of_eq s.pc s.status _ s.outputs)
  | arrives k hs => exact .inr (engineFrame_keyArrive k _ hs)

/-! ## The obligations -/

/-- Settles O45. -/
theorem everyInstructionAnswersANextState : Obligations.EveryInstructionAnswersANextState := by
  unfold Obligations.EveryInstructionAnswersANextState
  intro i s
  obtain ⟨t, hrun, -⟩ := exec_answers i s
  exact ⟨t, hrun⟩

/-- Settles O46. -/
theorem onlyThreeInstructionsWriteI : Obligations.OnlyThreeInstructionsWriteI := by
  unfold Obligations.OnlyThreeInstructionsWriteI
  intro s t h hok hne
  obtain ⟨i, u, hi, heffect, rfl⟩ | hframe := completed_or_engineFrame h hok
  · obtain ⟨nnn, rfl⟩ | ⟨x, rfl⟩ | ⟨x, rfl⟩ := heffect.writesI_of_i_ne hne
    · exact .inl ⟨nnn, hi⟩
    · exact .inr (.inl ⟨x, hi⟩)
    · exact .inr (.inr ⟨x, hi⟩)
  · exact absurd hframe.index hne

/-- Settles O47. -/
theorem onlyCallAndRetReachTheStack : Obligations.OnlyCallAndRetReachTheStack := by
  unfold Obligations.OnlyCallAndRetReachTheStack
  intro s t h hok hne
  obtain ⟨i, u, hi, heffect, rfl⟩ | hframe := completed_or_engineFrame h hok
  · obtain ⟨nnn, rfl⟩ | rfl := heffect.call_or_ret_of_stack_ne hne
    · exact .inl ⟨nnn, hi⟩
    · exact .inr hi
  · exact absurd hframe.stack hne

/-- Settles O48. -/
theorem onlyClsAndDrwChangePixels : Obligations.OnlyClsAndDrwChangePixels := by
  unfold Obligations.OnlyClsAndDrwChangePixels
  intro s t pos h hok hne
  have hfb : t.fb ≠ s.fb := fun he => hne (pixel_congr he pos)
  obtain ⟨i, u, hi, heffect, rfl⟩ | hframe := completed_or_engineFrame h hok
  · obtain rfl | ⟨x, y, n, rfl⟩ := heffect.cls_or_drw_of_fb_ne hfb
    · exact .inl hi
    · exact .inr ⟨x, y, n, hi⟩
  · exact absurd hframe.fb hfb

/-- Settles O49. -/
theorem onlyTwoInstructionsAndTheLoadWriteMemory : Obligations.OnlyTwoInstructionsAndTheLoadWriteMemory := by
  unfold Obligations.OnlyTwoInstructionsAndTheLoadWriteMemory
  intro s t a h hok hne
  obtain ⟨i, u, hi, heffect, rfl⟩ | hframe := completed_or_engineFrame h hok
  · obtain ⟨ha, ⟨x, rfl, hplace⟩ | ⟨x, rfl, hplace⟩⟩ := heffect.writesByte_of_byteAt_ne hne
    · exact ⟨ha, .inl ⟨x, hi, hplace⟩⟩
    · exact ⟨ha, .inr (.inl ⟨x, hi, hplace⟩)⟩
  · obtain ⟨ha, hload⟩ := hframe.memory a hne
    exact ⟨ha, .inr (.inr hload)⟩

/-- Settles O50. -/
theorem timersRiseOnlyByTheirWrite : Obligations.TimersRiseOnlyByTheirWrite := by
  unfold Obligations.TimersRiseOnlyByTheirWrite
  intro s t h hok
  obtain ⟨i, u, hi, heffect, rfl⟩ | hframe := completed_or_engineFrame h hok
  · refine ⟨fun hrise => ?_, fun hrise => ?_⟩
    · obtain ⟨x, rfl⟩ := heffect.ldDtVx_of_dt_ne fun he => Nat.ne_of_lt hrise (congrArg BitVec.toNat he.symm)
      exact ⟨x, hi⟩
    · obtain ⟨x, rfl⟩ := heffect.ldStVx_of_st_ne fun he => Nat.ne_of_lt hrise (congrArg BitVec.toNat he.symm)
      exact ⟨x, hi⟩
  · exact ⟨fun hrise => absurd hrise (Nat.not_lt.mpr hframe.dt), fun hrise => absurd hrise (Nat.not_lt.mpr hframe.st)⟩

/-- Settles O51. -/
theorem vfChangesOnlyAsFlagOrDestination : Obligations.VfChangesOnlyAsFlagOrDestination := by
  unfold Obligations.VfChangesOnlyAsFlagOrDestination
  intro s t h hok hne
  obtain ⟨i, u, hi, heffect, rfl⟩ | hframe := completed_or_engineFrame h hok
  · exact .inr ⟨i, hi, heffect.writesVf_of_vf_ne hne⟩
  · exact .inl (hframe.vf hne)

/-- Settles O52: of an answer made while Running only a fault has a faulted status, and each fault is one of the instruction's. -/
theorem eachCauseHasItsRaisers : Obligations.EachCauseHasItsRaisers := by
  unfold Obligations.EachCauseHasItsRaisers
  intro i s t c pc f hs hrun ht
  cases answer_of_exec hrun with
  | completes heffect =>
    obtain ⟨hstatus, -, -⟩ := heffect.engine_kept
    rw [advance_status, hstatus, hs] at ht
    cases ht
  | waits x hx => cases ht
  | @faults c' f' u hraises hu =>
    obtain ⟨hframe, -⟩ := hu
    rw [raiseFatal_status, hframe] at ht
    cases ht
    refine ⟨rfl, by rw [raiseFatal_outputs, hframe], ?_⟩
    cases hraises with
    | overflow nnn h => exact .inl ⟨nnn, rfl, rfl, rfl, h⟩
    | underflow h => exact .inr (.inl ⟨rfl, rfl, rfl, h⟩)
    | sprite x y n hn h => exact .inr (.inr (.inl ⟨x, y, n, rfl, rfl, rfl, hn, h⟩))
    | load x h => exact .inr (.inr (.inr (.inl ⟨x, rfl, rfl, rfl, h⟩)))
    | digits x h => exact .inr (.inr (.inr (.inr (.inl ⟨x, rfl, rfl, rfl, h⟩))))
    | store x h => exact .inr (.inr (.inr (.inr (.inr (.inl ⟨x, rfl, rfl, rfl, h⟩)))))
    | skp x h => exact .inr (.inr (.inr (.inr (.inr (.inr ⟨x, .inl rfl, rfl, rfl, h⟩)))))
    | sknp x h => exact .inr (.inr (.inr (.inr (.inr (.inr ⟨x, .inr rfl, rfl, rfl, h⟩)))))

/-- Settles O53. -/
theorem statusMovesAsItsTableSays : Obligations.StatusMovesAsItsTableSays := by
  unfold Obligations.StatusMovesAsItsTableSays
  intro s t h
  cases transition_of_step h with
  | loadFails r hs => simp [hs]
  | loads image hs hfits => simp [hs]
  | ticks hs => rw [tick_frame]; simp [hs]
  | fetchFaults hs => simp [hs]
  | runs hi hanswer =>
    have hs : s.status = .running := hi.1
    cases hanswer with
    | completes heffect => simp [heffect.engine_kept, hs]
    | waits x hx => simp [hs, hx ▸ hi]
    | faults hraises hu =>
      obtain ⟨hframe, -⟩ := hu
      rw [raiseFatal_status, hframe]
      simp [hs]
  | waits hs => simp [hs]
  | arrives k hs => simp [hs, keyArrive]

/-- Settles O54. -/
theorem parametersStayAndOutputsGrow : Obligations.ParametersStayAndOutputsGrow := by
  unfold Obligations.ParametersStayAndOutputsGrow
  intro s t h
  cases transition_of_step h with
  | loadFails r hs => exact ⟨rfl, [], (List.append_nil _).symm⟩
  | loads image hs hfits => exact ⟨rfl, [], (List.append_nil _).symm⟩
  | ticks hs =>
    refine ⟨by rw [tick_frame]; rfl, if s.st = 0#8 then [] else [.tone], ?_⟩
    rw [tick_outputs, gateFired_st, gateFired_outputs]
    by_cases hst : s.st = 0#8 <;> simp [hst]
  | fetchFaults hs => exact ⟨rfl, _, rfl⟩
  | runs hi hanswer =>
    cases hanswer with
    | completes heffect =>
      obtain ⟨-, hparams, houtputs⟩ := heffect.engine_kept
      exact ⟨hparams, [], by rw [advance_outputs, houtputs, List.append_nil]; rfl⟩
    | waits x hx => exact ⟨rfl, [], (List.append_nil _).symm⟩
    | @faults c f u hraises hu =>
      obtain ⟨hframe, -⟩ := hu
      refine ⟨by rw [raiseFatal_params, hframe]; rfl, [.diagnostic c u.pc f], ?_⟩
      rw [raiseFatal_outputs, hframe]
      rfl
  | waits hs => exact ⟨rfl, [], (List.append_nil _).symm⟩
  | arrives k hs => exact ⟨rfl, [], (List.append_nil _).symm⟩

end Sys2Proof.Machine
end

section
/-! The invariant (10_state.md, 20_memory.md section 1): it holds after `Init` and every step keeps it. -/

namespace Sys2Proof.Machine

/-! ## The bounds of a machine that has not failed -/

/-- The part of the invariant that speaks of the stack and the pc. -/
structure Bounded (s : State) : Prop where
  depth : s.stack.length ≤ 16
  returns : ∀ r ∈ s.stack, r.toNat ≤ 0x0FFE
  pcBound : s.pc.toNat ≤ 0x10FE

theorem State.Inv.bounded {s : State} (h : s.Inv) (hok : s.failed = false) : Bounded s :=
  ⟨h.depth hok, h.returns hok, h.pcBound hok⟩

theorem Bounded.congr {s t : State} (h : Bounded s) (hstack : t.stack = s.stack) (hpc : t.pc = s.pc) : Bounded t :=
  ⟨hstack ▸ h.depth, hstack ▸ h.returns, hpc ▸ h.pcBound⟩

theorem Bounded.inv_of_running {t : State} (h : Bounded t) (hmem : Memory.wf t.params.font t.mem) (hs : t.status = .running) :
    t.Inv where
  memory := hmem
  depth _ := h.depth
  returns _ := h.returns
  pcBound _ := h.pcBound
  waiting _ hw := by simp [hs] at hw
  noRegRange _ _ := by simp [hs]

theorem Bounded.inv_of_waitKey {t : State} {x : RegId} (h : Bounded t) (hmem : Memory.wf t.params.font t.mem)
    (hs : t.status = .waitKey x) (hpc : t.pc.toNat ≤ 0x0FFE) : t.Inv where
  memory := hmem
  depth _ := h.depth
  returns _ := h.returns
  pcBound _ := h.pcBound
  waiting _ _ := hpc
  noRegRange _ _ := by simp [hs]

/-- Of a failed machine the invariant asks the memory and the cause alone (60_exceptions.md R222). -/
theorem inv_of_failed {t : State} (hmem : Memory.wf t.params.font t.mem) (hfailed : t.failed = true)
    (hcause : ∀ pc info, t.status ≠ .faulted .regRange pc info) : t.Inv where
  memory := hmem
  depth hok := by simp [hfailed] at hok
  returns hok := by simp [hfailed] at hok
  pcBound hok := by simp [hfailed] at hok
  waiting _ hw := by simp [State.failed, hw] at hfailed
  noRegRange := hcause

/-! ## What an instruction keeps -/

/-- A skip goes on at most 4 from a fetched instruction, a jump no further than the longest (40_control_flow.md R138). -/
theorem MovesPcTo.advance_le {s : State} {p : Word} (h : MovesPcTo s p) (hfetched : s.pc.toNat + 1 < 4096) :
    (p + 2#16).toNat ≤ 0x10FE := by
  obtain rfl | rfl | ⟨target, htarget, rfl⟩ := h
  · bv_omega
  · bv_omega
  · rw [BitVec.sub_add_cancel, BitVec.toNat_ofNat]
    omega

theorem Effect.bounded {s u : State} {i : Instr} (h : Effect s i u) (hb : Bounded s) (hfetched : s.pc.toNat + 1 < 4096) :
    Bounded (advance u) := by
  have hnext : (s.pc + 2#16).toNat ≤ 0x10FE := MovesPcTo.advance_le (.inl rfl) hfetched
  cases h with
  | pc i p n hp => exact ⟨hb.depth, hb.returns, hp.advance_le hfetched⟩
  | call nnn hroom =>
    refine ⟨?_, fun r hr => ?_, ?_⟩
    · rw [advance_stack, jump_stack, List.length_append, List.length_singleton]
      omega
    · obtain hr | rfl : r ∈ s.stack ∨ r = s.pc := by simpa using hr
      · exact hb.returns r hr
      · omega
    · rw [advance_jump_pc, ofNat_addr_toNat]
      omega
  | ret rest r hstack =>
    have hdepth := hb.depth
    have hreturns := hb.returns
    rw [hstack] at hdepth hreturns
    rw [List.length_append] at hdepth
    refine ⟨Nat.le_of_add_right_le hdepth, fun w hw => hreturns w (List.mem_append_left _ hw), ?_⟩
    have hr : r.toNat ≤ 0x0FFE := hreturns r (by simp)
    rw [advance_pc]
    bv_omega
  | _ => exact ⟨hb.depth, hb.returns, hnext⟩

/-- The reserved cause is raised by no instruction (10_state.md R34). -/
theorem Raises.cause_ne_regRange {s : State} {i : Instr} {c : Cause} {f : FaultInfo} (h : Raises s i c f) : c ≠ .regRange := by
  cases h with
  | _ => decide

theorem Answer.inv {s t : State} {i : Instr} (h : Answer s i t) (hs : s.status = .running) (hmem : Memory.wf s.params.font s.mem)
    (hb : Bounded s) (hfetched : s.pc.toNat + 1 < 4096) : t.Inv := by
  cases h with
  | completes heffect =>
    obtain ⟨hstatus, -, -⟩ := heffect.engine_kept
    exact (heffect.bounded hb hfetched).inv_of_running (heffect.memory_wf hmem) (hstatus.trans hs)
  | waits x hx =>
    have hpc : s.pc.toNat ≤ 0x0FFE := by omega
    exact Bounded.inv_of_waitKey (hb.congr rfl rfl) hmem rfl hpc
  | @faults c f u hraises hu =>
    obtain ⟨hframe, hwf⟩ := hu
    refine inv_of_failed ?_ rfl fun pc info he => hraises.cause_ne_regRange ?_
    · rw [raiseFatal_params, raiseFatal_mem, hframe]
      exact hwf hmem
    · rw [raiseFatal_status] at he
      cases he
      rfl

/-! ## The obligations -/

theorem init_inv (p : Params) (n : Inputs) : (State.init p n).Inv where
  memory := Memory.nil_wf p.font
  depth _ := Nat.zero_le _
  returns _ _ hr := nomatch hr
  pcBound _ := show (512#16).toNat ≤ 0x10FE by decide
  waiting _ hw := nomatch hw
  noRegRange _ _ he := nomatch he

/-- Settles O2. -/
theorem initSatisfiesTheInvariant : Obligations.InitSatisfiesTheInvariant := by
  unfold Obligations.InitSatisfiesTheInvariant
  exact ⟨init_inv defaultParams Inputs.nothing, init_inv⟩

/-- Settles O3: each transition that leaves the machine unfailed keeps the bounds of the stack and the pc, and none breaks the
form of memory. -/
theorem everyStepKeepsTheInvariant : Obligations.EveryStepKeepsTheInvariant := by
  unfold Obligations.EveryStepKeepsTheInvariant
  intro s t hinv h
  cases transition_of_step h with
  | loadFails r hs => exact inv_of_failed hinv.memory rfl fun _ _ he => nomatch he
  | loads image hs hfits =>
    have hb := hinv.bounded (by rw [State.failed, hs])
    exact Bounded.inv_of_running (hb.congr rfl rfl) (Memory.putList_wf _ image (by omega) hinv.memory) rfl
  | ticks hs =>
    have hb := hinv.bounded (by rw [State.failed, hs])
    rw [tick_frame]
    exact Bounded.inv_of_running (hb.congr rfl rfl) hinv.memory hs
  | fetchFaults hs => exact inv_of_failed hinv.memory rfl fun _ _ he => nomatch he
  | runs hi hanswer =>
    obtain ⟨hs, -, hfetched, -⟩ := hi
    have hb := hinv.bounded (by rw [State.failed, hs])
    exact hanswer.inv hs hinv.memory (hb.congr rfl rfl) hfetched
  | @waits x hs =>
    have hb := hinv.bounded (by rw [State.failed, hs])
    exact Bounded.inv_of_waitKey (hb.congr rfl rfl) hinv.memory hs (hinv.waiting x hs)
  | @arrives x k hs =>
    have hb := hinv.bounded (by rw [State.failed, hs])
    have hwait : s.pc.toNat ≤ 0x0FFE := hinv.waiting x hs
    have hnext : (s.pc + 2#16).toNat ≤ 0x10FE := by bv_omega
    exact Bounded.inv_of_running ⟨hb.depth, hb.returns, hnext⟩ hinv.memory rfl

end Sys2Proof.Machine
end

section
/-! The transitions of the engine: `Init`, the load, the fetch, the terminal statuses and the tick (70_reset_and_hazards.md,
20_memory.md, 60_exceptions.md). -/

namespace Sys2Proof.Machine

/-! ## The step, status by status -/

theorem step_reset {s : State} (hs : s.status = .reset) : step s = .next (loadImage s) := by
  simp only [step, hs]

theorem step_tick {s : State} (hs : s.status = .running) (hgate : s.inputs.nextActivity = .tick) :
    step s = .next (tick (gateFired s)) := by
  simp only [step, hs, hgate]

theorem step_fast_gate {s : State} (hs : s.status = .running) (hgate : s.inputs.nextActivity = .step) :
    step s = instructionStep (gateFired s) := by
  simp only [step, hs, hgate]

theorem step_instruction {s : State} (hs : s.status = .running) (hgate : s.inputs.nextActivity = .step)
    (hfetched : s.pc.toNat + 1 < 4096) : step s = exec (decodeWord s.wordAtPc) (gateFired s) := by
  rw [step_fast_gate hs hgate, instructionStep_eq, gateFired_pc, if_pos hfetched, wordAtPc_gateFired]

theorem step_fetch_fault {s : State} (hs : s.status = .running) (hgate : s.inputs.nextActivity = .step)
    (hpast : 4096 ≤ s.pc.toNat + 1) : step s = .next (raiseFatal .fetchRange .pcOnly (gateFired s)) := by
  rw [step_fast_gate hs hgate, instructionStep_eq, gateFired_pc, if_neg (Nat.not_lt.mpr hpast)]

/-! ## The load, by the image supplied -/

theorem loadImage_missing {s : State} (h : s.inputs.image = none) : loadImage s = { s with status := .loadFailed .missing } := by
  simp only [loadImage, h]

theorem loadImage_tooLarge {s : State} {image : List Byte} (h : s.inputs.image = some image) (hlarge : 3584 < image.length) :
    loadImage s = { s with status := .loadFailed .tooLarge } := by
  simp only [loadImage, h, if_pos hlarge]

theorem loadImage_fits {s : State} {image : List Byte} (h : s.inputs.image = some image) (hfits : image.length ≤ 3584) :
    loadImage s = { s.putBytes 512 image with status := .running } := by
  simp only [loadImage, h, if_neg (Nat.not_lt.mpr hfits)]
  rfl

/-! ## The obligations -/

/-- Settles O1. -/
theorem initLeavesTheResetValues : Obligations.InitLeavesTheResetValues := by
  unfold Obligations.InitLeavesTheResetValues
  refine ⟨rfl, ?_⟩
  rintro p n _ rfl
  refine ⟨rfl, fun x => ?_, rfl, rfl, rfl, rfl, fun pos => ?_, rfl, rfl, rfl, fun a ha => ?_, fun a ha => ?_⟩
  · exact Vector.getElem_replicate _
  · exact pixel_fbClear (State.init p n) pos
  · exact dif_pos ha
  · exact dif_neg (Nat.not_lt.mpr ha)

/-- Settles O4. -/
theorem loadPutsTheImageAt512 : Obligations.LoadPutsTheImageAt512 := by
  unfold Obligations.LoadPutsTheImageAt512
  intro s hs
  rw [step_reset hs]
  refine ⟨fun hnone => by rw [loadImage_missing hnone], fun image himage => ⟨fun hlarge => by
    rw [loadImage_tooLarge himage hlarge], fun hfits => ?_⟩⟩
  rw [loadImage_fits himage hfits]
  exact ⟨_, rfl, rfl, fun k hk => byteAt_putBytes_at (s := s) (List.getElem?_eq_getElem hk),
    fun a ha => byteAt_putBytes_outside (s := s) ha⟩

/-- Settles O5. -/
theorem stepRunsTheDecodedInstruction : Obligations.StepRunsTheDecodedInstruction := by
  unfold Obligations.StepRunsTheDecodedInstruction
  intro s i hs hgate hfetched hdecode
  have hi : decodeWord s.wordAtPc = i := by
    rw [decode_cons] at hdecode
    cases hdecode
    rfl
  rw [step_instruction hs hgate hfetched, hi]
  exact ⟨hi ▸ (roundTrips_decodeWord s.wordAtPc).1, rfl⟩

/-- Settles O6. -/
theorem fetchPastMemoryFaults : Obligations.FetchPastMemoryFaults := by
  unfold Obligations.FetchPastMemoryFaults
  exact fun s hs hgate hpast => ⟨_, step_fetch_fault hs hgate hpast, rfl, rfl⟩

/-- Settles O7. -/
theorem terminalStatusEnablesNothing : Obligations.TerminalStatusEnablesNothing := by
  unfold Obligations.TerminalStatusEnablesNothing
  exact fun s => ⟨fun c pc f hs => by simp only [step, hs], fun r hs => by simp only [step, hs]⟩

/-- Settles O8. -/
theorem tickCountsBothTimersDown : Obligations.TickCountsBothTimersDown := by
  unfold Obligations.TickCountsBothTimersDown
  intro s hs hgate
  refine ⟨_, step_tick hs hgate, tick_dt_toNat _, tick_st_toNat _, ?_, fun a => ?_, tick_frame _⟩
  · rw [tick_outputs, gateFired_st, gateFired_outputs]
    by_cases hst : s.st = 0#8 <;> simp [hst]
  · rw [tick_frame]
    rfl

/-- Settles O9, tick by tick: the first gives a pulse where ST is not 0. -/
theorem soundTimerOfVGivesVPulses : Obligations.SoundTimerOfVGivesVPulses := by
  unfold Obligations.SoundTimerOfVGivesVPulses
  intro n
  induction n with
  | zero => simp [ticks]
  | succ n ih =>
    intro s
    obtain ⟨houtputs, hst, hdt⟩ := ih (tick s)
    rw [tick_outputs, tick_st_toNat] at houtputs
    rw [tick_st_toNat] at hst
    rw [tick_dt_toNat] at hdt
    refine ⟨?_, by rw [ticks, hst]; omega, by rw [ticks, hdt]; omega⟩
    rw [ticks, houtputs]
    by_cases hzero : s.st = 0#8
    · simp [hzero]
    · have hpos : s.st.toNat ≠ 0 := fun h0 => hzero (BitVec.eq_of_toNat_eq h0)
      have hcount : min (n + 1) s.st.toNat = min n (s.st.toNat - 1) + 1 := by omega
      rw [if_neg hzero, hcount, List.replicate_succ, List.append_assoc, List.singleton_append]

end Sys2Proof.Machine
end

section
/-! Idle machines and fair runs (70_reset_and_hazards.md section 4, 60_exceptions.md R232): while idle, only the ticks of a run
change anything. -/

namespace Sys2Proof.Machine

/-! ## A step of the idle loop -/

/-- The idle end is a fetched jump to itself (70_reset_and_hazards.md R270, end 2). -/
theorem fetched_of_idle {s : State} (h : s.idle = true) :
    s.pc.toNat + 1 < 4096 ∧ decodeWord s.wordAtPc = .jp (s.pc.setWidth 12) := by
  unfold State.idle at h
  obtain hpc | hpc := Nat.lt_or_ge (s.pc.toNat + 1) 4096
  · rw [fetch_ok hpc] at h
    simp only [Bool.and_eq_true, beq_iff_eq] at h
    exact ⟨hpc, h.2⟩
  · rw [fetch_fault hpc] at h
    simp at h

/-- A pc below 4096 is its own 12-bit literal, so the jump lands where it started. -/
theorem exec_jp_self {s : State} (hpc : s.pc.toNat < 4096) : exec (.jp (s.pc.setWidth 12)) s = .next s := by
  have hself : (advance (jump (s.pc.setWidth 12).toNat s)).pc = s.pc := by
    rw [advance_jump_pc, BitVec.toNat_setWidth, Nat.mod_eq_of_lt hpc, BitVec.ofNat_toNat, BitVec.setWidth_eq]
  have hframe : advance (jump (s.pc.setWidth 12).toNat s) =
      { s with pc := (advance (jump (s.pc.setWidth 12).toNat s)).pc } := rfl
  rw [exec_jp, completed, hframe, hself]

theorem step_idle {s : State} (h : s.idle = true) (hgate : s.inputs.nextActivity = .step) : step s = .next (gateFired s) := by
  obtain ⟨hfetched, hjump⟩ := fetched_of_idle h
  rw [step_instruction (running_of_idle h) hgate hfetched, hjump]
  exact exec_jp_self (s := gateFired s) (by rw [gateFired_pc]; omega)

/-- Settles O24. -/
theorem idleStepChangesNothing : Obligations.IdleStepChangesNothing := by
  unfold Obligations.IdleStepChangesNothing
  exact fun s h hgate => step_idle h hgate

/-! ## Ticks in a row -/

theorem ticks_succ (n : Nat) (s : State) : ticks (n + 1) s = tick (ticks n s) := by
  induction n generalizing s with
  | zero => rfl
  | succ n ih => rw [ticks, ih (tick s), ticks]

theorem ticks_frame (n : Nat) (s : State) :
    ticks n s = { s with dt := (ticks n s).dt, st := (ticks n s).st, outputs := (ticks n s).outputs } := by
  induction n with
  | zero => rfl
  | succ n ih =>
    rw [ticks_succ, tick_frame, ih]

/-- The state with these answers of the outside world to come. -/
def State.withInputs (m : Inputs) (s : State) : State := { s with inputs := m }

/-- A tick neither reads nor moves the outside world's answers. -/
theorem tick_withInputs (m : Inputs) (s : State) : tick (s.withInputs m) = (tick s).withInputs m := by
  unfold tick tickSound tickDelay State.withInputs
  by_cases hdt : s.dt = 0#8 <;> by_cases hst : s.st = 0#8 <;> simp [hdt, hst]

theorem gateFired_withGate (a : Activity) (s : State) :
    gateFired (s.withGate a) = s.withInputs (gateFired (s.withGate a)).inputs := rfl

theorem idle_ticks {s : State} (h : s.idle = true) (n : Nat) (m : Inputs) : ((ticks n s).withInputs m).idle = true := by
  rw [← h, ticks_frame]
  exact idle_congr rfl rfl rfl rfl

/-! ## Runs from an idle state -/

/-- How many of the first `n` transitions are ticks. -/
def tickCount (choice : Nat → Activity) (n : Nat) : Nat := Nat.count (fun k => choice k = .tick) n

theorem tickCount_succ (choice : Nat → Activity) (n : Nat) :
    tickCount choice (n + 1) = tickCount choice n + if choice n = .tick then 1 else 0 := Nat.count_succ ..

/-- A run from an idle state is its ticks: the steps between them change nothing but the inputs. -/
theorem runUnder_idle (choice : Nat → Activity) {s : State} (h : s.idle = true) (n : Nat) :
    ∃ m : Inputs, runUnder choice n s = .next ((ticks (tickCount choice n) s).withInputs m) := by
  induction n with
  | zero => exact ⟨s.inputs, rfl⟩
  | succ n ih =>
    obtain ⟨m, hrun⟩ := ih
    have hidle := idle_ticks h (tickCount choice n) m
    rw [runUnder_succ hrun, tickCount_succ]
    cases hgate : choice n with
    | step =>
      rw [step_idle (by rwa [idle_withGate]) (withGate_nextActivity ..)]
      exact ⟨_, rfl⟩
    | tick =>
      rw [step_withGate_tick (running_of_idle hidle), if_pos rfl, ticks_succ, gateFired_withGate, tick_withInputs,
        tick_withInputs]
      exact ⟨_, rfl⟩

theorem runningAt_of_idle (choice : Nat → Activity) {s : State} (h : s.idle = true) (n : Nat) : runningAt choice n s := by
  obtain ⟨m, hrun⟩ := runUnder_idle choice h n
  exact ⟨_, hrun, running_of_idle (idle_ticks h _ m)⟩

/-- Ticks that fire after every point fire any number of times. -/
theorem exists_tickCount_ge {choice : Nat → Activity} (hticks : ∀ n, ∃ m, n ≤ m ∧ choice m = .tick) (k : Nat) :
    ∃ n, k ≤ tickCount choice n := by
  induction k with
  | zero => exact ⟨0, Nat.zero_le _⟩
  | succ k ih =>
    obtain ⟨n, hn⟩ := ih
    obtain ⟨m, hnm, hm⟩ := hticks n
    have hmono : tickCount choice n ≤ tickCount choice m := Nat.count_monotone _ hnm
    refine ⟨m + 1, ?_⟩
    rw [tickCount_succ, if_pos hm]
    omega

/-! ## Fairness -/

/-- A run under one gate alone, Running at every point, starves the other gate. -/
theorem not_fairRun_of_starved {a b : Activity} (hne : b ≠ a) {s : State} (hrunning : ∀ n, runningAt (fun _ => b) n s) :
    ¬fairRun (fun _ => b) s := by
  intro hfair
  obtain ⟨m, -, hm⟩ := hfair a 0 fun n _ => hrunning n
  exact hne hm

/-- Ticks alone leave a running machine running. -/
theorem runningAt_ticks {s : State} (hs : s.status = .running) (n : Nat) : runningAt (fun _ => .tick) n s := by
  induction n with
  | zero => exact ⟨s, rfl, hs⟩
  | succ n ih =>
    obtain ⟨t, hrun, ht⟩ := ih
    refine ⟨_, by rw [runUnder_succ hrun, step_withGate_tick ht], ?_⟩
    rw [tick_frame]
    exact ht

/-! ## The obligations -/

/-- Settles O55: an idle machine stays Running, so fairness gives ticks without end, and 255 of them bring both timers to 0. -/
theorem fairIdleRunCountsTheTimersDown : Obligations.FairIdleRunCountsTheTimersDown := by
  unfold Obligations.FairIdleRunCountsTheTimersDown
  intro choice s h hfair
  have hboth : ∀ (a : Activity) (n : Nat), ∃ m, n ≤ m ∧ choice m = a :=
    fun a n => hfair a n fun m _ => runningAt_of_idle choice h m
  refine ⟨hboth, ?_⟩
  obtain ⟨n, hn⟩ := exists_tickCount_ge (hboth .tick) 255
  obtain ⟨m, hrun⟩ := runUnder_idle choice h n
  obtain ⟨houtputs, hst, hdt⟩ := soundTimerOfVGivesVPulses (tickCount choice n) s
  rw [Nat.min_eq_right (by omega)] at houtputs
  refine ⟨n, _, hrun, idle_ticks h _ m, BitVec.eq_of_toNat_eq ?_, BitVec.eq_of_toNat_eq ?_, houtputs, fun a => ?_, ?_⟩
  · show (ticks (tickCount choice n) s).dt.toNat = 0
    omega
  · show (ticks (tickCount choice n) s).st.toNat = 0
    omega
  · rw [ticks_frame]
    rfl
  · rw [ticks_frame]
    rfl

/-- Settles O56. -/
theorem starvedRunsAreUnfair : Obligations.StarvedRunsAreUnfair := by
  unfold Obligations.StarvedRunsAreUnfair
  refine fun s => ⟨fun hs => ?_, fun h => ?_⟩
  · have hunfair := not_fairRun_of_starved (a := .step) (by decide) (runningAt_ticks hs)
    exact ⟨hunfair, fun hhang => hunfair hhang.1⟩
  · have hunfair := not_fairRun_of_starved (a := .tick) (by decide) (runningAt_of_idle (fun _ => .step) h)
    exact ⟨hunfair, fun hhang => hunfair hhang.1⟩

end Sys2Proof.Machine
end
